-- ==== Sys2Proof/Word.lean ====
section
/-! DEFINITION. The word types of the block: bytes, 16-bit words, register indices (00_scope.md R5, R8). -/

namespace Sys2Proof

/-- An 8-bit value: a general register, a timer, a memory byte (00_scope.md R5). -/
abbrev Byte := BitVec 8

/-- A 16-bit value: an instruction word, `I`, `pc`, a stack slot, the key mask (00_scope.md R5). -/
abbrev Word := BitVec 16

/-- The index of a general register V0..VF (10_state.md R21). -/
abbrev Reg := Fin 16

/-- VF, the register that is also the flag output (10_state.md R22). -/
abbrev Reg.vf : Reg := 15

/-- V0, the offset register of Bnnn (41_control_flow.md R117). -/
abbrev Reg.v0 : Reg := 0

end Sys2Proof
end

