-- ==== Sys2Proof/Syntax.lean ====
section
/-! DEFINITION. The 34 instructions of spec/opcode_table.json (30_encoding.md R74), one constructor each. -/

namespace Sys2Proof

/-- An instruction with its operand fields (30_encoding.md R71). Register fields are register indices, `nnn` is the
12-bit address, `kk` the immediate byte. The row count of `drw` is a count, so it is a `Nat`, and
`Instr.wellFormed` bounds it by its 4-bit field (log 22). The y field of `shr` and `shl` is kept although
nothing reads it (30_encoding.md R80), so that each word has an instruction of its own. -/
inductive Instr where
  /-- 00E0 `CLS` (R170) -/
  | cls
  /-- 00EE `RET` (R110) -/
  | ret
  /-- 1nnn `JP nnn` (R111) -/
  | jp (nnn : BitVec 12)
  /-- 2nnn `CALL nnn` (R112) -/
  | call (nnn : BitVec 12)
  /-- 3xkk `SE Vx, kk` (R113) -/
  | seByte (x : Reg) (kk : Byte)
  /-- 4xkk `SNE Vx, kk` (R114) -/
  | sneByte (x : Reg) (kk : Byte)
  /-- 5xy0 `SE Vx, Vy` (R115) -/
  | seReg (x y : Reg)
  /-- 6xkk `LD Vx, kk` (R131) -/
  | ldByte (x : Reg) (kk : Byte)
  /-- 7xkk `ADD Vx, kk` (R132) -/
  | addByte (x : Reg) (kk : Byte)
  /-- 8xy0 `LD Vx, Vy` (R133) -/
  | ldReg (x y : Reg)
  /-- 8xy1 `OR Vx, Vy` (R134) -/
  | or (x y : Reg)
  /-- 8xy2 `AND Vx, Vy` (R135) -/
  | and (x y : Reg)
  /-- 8xy3 `XOR Vx, Vy` (R136) -/
  | xor (x y : Reg)
  /-- 8xy4 `ADD Vx, Vy` (R137) -/
  | addReg (x y : Reg)
  /-- 8xy5 `SUB Vx, Vy` (R138) -/
  | sub (x y : Reg)
  /-- 8xy6 `SHR Vx, Vy` (R139) -/
  | shr (x y : Reg)
  /-- 8xy7 `SUBN Vx, Vy` (R140) -/
  | subn (x y : Reg)
  /-- 8xyE `SHL Vx, Vy` (R141) -/
  | shl (x y : Reg)
  /-- 9xy0 `SNE Vx, Vy` (R116) -/
  | sneReg (x y : Reg)
  /-- Annn `LD I, nnn` (R150) -/
  | ldI (nnn : BitVec 12)
  /-- Bnnn `JP V0, nnn` (R117) -/
  | jpV0 (nnn : BitVec 12)
  /-- Cxkk `RND Vx, kk` (R142) -/
  | rnd (x : Reg) (kk : Byte)
  /-- Dxyn `DRW Vx, Vy, n` (R172) -/
  | drw (x y : Reg) (n : Nat)
  /-- Ex9E `SKP Vx` (R180) -/
  | skp (x : Reg)
  /-- ExA1 `SKNP Vx` (R181) -/
  | sknp (x : Reg)
  /-- Fx07 `LD Vx, DT` (R182) -/
  | ldVxDT (x : Reg)
  /-- Fx0A `LD Vx, K` (R183) -/
  | ldVxK (x : Reg)
  /-- Fx15 `LD DT, Vx` (R184) -/
  | ldDTVx (x : Reg)
  /-- Fx18 `LD ST, Vx` (R185) -/
  | ldSTVx (x : Reg)
  /-- Fx1E `ADD I, Vx` (R151) -/
  | addI (x : Reg)
  /-- Fx29 `LD F, Vx` (R152) -/
  | ldF (x : Reg)
  /-- Fx33 `LD B, Vx` (R153) -/
  | ldB (x : Reg)
  /-- Fx55 `LD [I], Vx` (R154) -/
  | storeRegs (x : Reg)
  /-- Fx65 `LD Vx, [I]` (R155) -/
  | loadRegs (x : Reg)
  deriving DecidableEq, Repr

end Sys2Proof
end

