-- ==== Sys2Proof/Decode.lean ====
section
/-! DEFINITION. Fields, decoder and encoder of the 16-bit instruction word (30_encoding.md R70 to R81). -/

namespace Sys2Proof

/-! ## Fields (30_encoding.md R71) -/

/-- `op` = w[15:12], the dispatch key. -/
def opField (w : Word) : BitVec 4 := w.extractLsb' 12 4
/-- `X` = w[11:8]. -/
def xField (w : Word) : Reg := ⟨(w.extractLsb' 8 4).toNat, (w.extractLsb' 8 4).isLt⟩
/-- `Y` = w[7:4]. -/
def yField (w : Word) : Reg := ⟨(w.extractLsb' 4 4).toNat, (w.extractLsb' 4 4).isLt⟩
/-- `N` = w[3:0]. -/
def nField (w : Word) : BitVec 4 := w.extractLsb' 0 4
/-- `NNN` = w[11:0]. -/
def nnnField (w : Word) : BitVec 12 := w.extractLsb' 0 12
/-- `KK` = w[7:0]. -/
def kkField (w : Word) : Byte := w.extractLsb' 0 8

/-- Two bytes joined big-endian: the byte at the lower address is bits 15:8 (20_memory.md R54). -/
def joinBytes (hi lo : Byte) : Word := hi ++ lo
/-- Bits 15:8 of a word, stored at the lower address (20_memory.md R54). -/
def highByte (w : Word) : Byte := w.extractLsb' 8 8
/-- Bits 7:0 of a word, stored at the higher address (20_memory.md R54). -/
def lowByte (w : Word) : Byte := w.extractLsb' 0 8

/-! ## Decoder -/

/-- The two results of decoding a word (30_encoding.md R73). -/
inductive Decoded where
  /-- a row of 30_encoding.md R74, with its fields -/
  | instr (i : Instr)
  /-- the word matches no row (30_encoding.md R75); it runs as a reported no-op -/
  | unsupported (w : Word)
  deriving DecidableEq, Repr

/-- The second dispatch of nibble 0x8, on w[3:0] (30_encoding.md R78). -/
def decode8 (w : Word) : Decoded :=
  if nField w = 0x0#4 then .instr (.ldReg (xField w) (yField w))
  else if nField w = 0x1#4 then .instr (.or (xField w) (yField w))
  else if nField w = 0x2#4 then .instr (.and (xField w) (yField w))
  else if nField w = 0x3#4 then .instr (.xor (xField w) (yField w))
  else if nField w = 0x4#4 then .instr (.addReg (xField w) (yField w))
  else if nField w = 0x5#4 then .instr (.sub (xField w) (yField w))
  else if nField w = 0x6#4 then .instr (.shr (xField w) (yField w))
  else if nField w = 0x7#4 then .instr (.subn (xField w) (yField w))
  else if nField w = 0xE#4 then .instr (.shl (xField w) (yField w))
  else .unsupported w

/-- The second dispatch of nibble 0xE, on w[7:0] (30_encoding.md R79). -/
def decodeE (w : Word) : Decoded :=
  if kkField w = 0x9E#8 then .instr (.skp (xField w))
  else if kkField w = 0xA1#8 then .instr (.sknp (xField w))
  else .unsupported w

/-- The second dispatch of nibble 0xF, on w[7:0] (30_encoding.md R79). -/
def decodeF (w : Word) : Decoded :=
  if kkField w = 0x07#8 then .instr (.ldVxDT (xField w))
  else if kkField w = 0x0A#8 then .instr (.ldVxK (xField w))
  else if kkField w = 0x15#8 then .instr (.ldDTVx (xField w))
  else if kkField w = 0x18#8 then .instr (.ldSTVx (xField w))
  else if kkField w = 0x1E#8 then .instr (.addI (xField w))
  else if kkField w = 0x29#8 then .instr (.ldF (xField w))
  else if kkField w = 0x33#8 then .instr (.ldB (xField w))
  else if kkField w = 0x55#8 then .instr (.storeRegs (xField w))
  else if kkField w = 0x65#8 then .instr (.loadRegs (xField w))
  else .unsupported w

/-- The decoder: total, reads no state (30_encoding.md R73 to R79). Nibble 0x0 needs an exact match of the whole
word (R76), nibbles 0x5 and 0x9 need w[3:0] = 0 (R77). -/
def decode (w : Word) : Decoded :=
  if opField w = 0x0#4 then
    if w = 0x00E0#16 then .instr .cls
    else if w = 0x00EE#16 then .instr .ret
    else .unsupported w
  else if opField w = 0x1#4 then .instr (.jp (nnnField w))
  else if opField w = 0x2#4 then .instr (.call (nnnField w))
  else if opField w = 0x3#4 then .instr (.seByte (xField w) (kkField w))
  else if opField w = 0x4#4 then .instr (.sneByte (xField w) (kkField w))
  else if opField w = 0x5#4 then
    if nField w = 0x0#4 then .instr (.seReg (xField w) (yField w)) else .unsupported w
  else if opField w = 0x6#4 then .instr (.ldByte (xField w) (kkField w))
  else if opField w = 0x7#4 then .instr (.addByte (xField w) (kkField w))
  else if opField w = 0x8#4 then decode8 w
  else if opField w = 0x9#4 then
    if nField w = 0x0#4 then .instr (.sneReg (xField w) (yField w)) else .unsupported w
  else if opField w = 0xA#4 then .instr (.ldI (nnnField w))
  else if opField w = 0xB#4 then .instr (.jpV0 (nnnField w))
  else if opField w = 0xC#4 then .instr (.rnd (xField w) (kkField w))
  else if opField w = 0xD#4 then .instr (.drw (xField w) (yField w) (nField w).toNat)
  else if opField w = 0xE#4 then decodeE w
  else decodeF w

/-- What the decoder reads at the front of a byte sequence. -/
inductive ByteDecoded where
  /-- an instruction, and the bytes after its word -/
  | instr (i : Instr) (rest : List Byte)
  /-- a word that matches no row, and the bytes after it -/
  | unsupported (w : Word) (rest : List Byte)
  /-- fewer than the two bytes of a word (30_encoding.md R70) -/
  | truncated
  deriving DecidableEq, Repr

/-- The decoder on bytes: every instruction is two big-endian bytes (30_encoding.md R70). -/
def decodeBytes : List Byte → ByteDecoded
  | hi :: lo :: rest =>
    match decode (joinBytes hi lo) with
    | .instr i => .instr i rest
    | .unsupported w => .unsupported w rest
  | _ => .truncated

/-- The instruction the decoder reads from an instruction whose bits are `w`, numbered as
spec/opcode_table.json numbers them. Every row is one 16-bit word, whatever `nbits` says. -/
def decodeTableWord (_nbits w : Nat) : Option Instr :=
  match decodeBytes [highByte (BitVec.ofNat 16 w), lowByte (BitVec.ofNat 16 w)] with
  | .instr i _ => some i
  | .unsupported _ _ => none
  | .truncated => none

/-! ## Encoder -/

/-- A register index as a 4-bit field. -/
def regField (r : Reg) : BitVec 4 := BitVec.ofFin r

/-- Format F_NNN (30_encoding.md R72). -/
def encNNN (op : BitVec 4) (nnn : BitVec 12) : Word := op ++ nnn
/-- Formats F_XKK and F_XFF (30_encoding.md R72). -/
def encXKK (op : BitVec 4) (x : Reg) (kk : Byte) : Word := op ++ regField x ++ kk
/-- Formats F_XYF and F_XYN (30_encoding.md R72). -/
def encXYN (op : BitVec 4) (x y : Reg) (n : BitVec 4) : Word := op ++ regField x ++ regField y ++ n

/-- The word of an instruction, from the patterns of 30_encoding.md R74. -/
def encode : Instr → Word
  | .cls => 0x00E0#16
  | .ret => 0x00EE#16
  | .jp nnn => encNNN 0x1#4 nnn
  | .call nnn => encNNN 0x2#4 nnn
  | .seByte x kk => encXKK 0x3#4 x kk
  | .sneByte x kk => encXKK 0x4#4 x kk
  | .seReg x y => encXYN 0x5#4 x y 0x0#4
  | .ldByte x kk => encXKK 0x6#4 x kk
  | .addByte x kk => encXKK 0x7#4 x kk
  | .ldReg x y => encXYN 0x8#4 x y 0x0#4
  | .or x y => encXYN 0x8#4 x y 0x1#4
  | .and x y => encXYN 0x8#4 x y 0x2#4
  | .xor x y => encXYN 0x8#4 x y 0x3#4
  | .addReg x y => encXYN 0x8#4 x y 0x4#4
  | .sub x y => encXYN 0x8#4 x y 0x5#4
  | .shr x y => encXYN 0x8#4 x y 0x6#4
  | .subn x y => encXYN 0x8#4 x y 0x7#4
  | .shl x y => encXYN 0x8#4 x y 0xE#4
  | .sneReg x y => encXYN 0x9#4 x y 0x0#4
  | .ldI nnn => encNNN 0xA#4 nnn
  | .jpV0 nnn => encNNN 0xB#4 nnn
  | .rnd x kk => encXKK 0xC#4 x kk
  | .drw x y n => encXYN 0xD#4 x y (BitVec.ofNat 4 n)
  | .skp x => encXKK 0xE#4 x 0x9E#8
  | .sknp x => encXKK 0xE#4 x 0xA1#8
  | .ldVxDT x => encXKK 0xF#4 x 0x07#8
  | .ldVxK x => encXKK 0xF#4 x 0x0A#8
  | .ldDTVx x => encXKK 0xF#4 x 0x15#8
  | .ldSTVx x => encXKK 0xF#4 x 0x18#8
  | .addI x => encXKK 0xF#4 x 0x1E#8
  | .ldF x => encXKK 0xF#4 x 0x29#8
  | .ldB x => encXKK 0xF#4 x 0x33#8
  | .storeRegs x => encXKK 0xF#4 x 0x55#8
  | .loadRegs x => encXKK 0xF#4 x 0x65#8

/-- The instruction as the two bytes memory holds (30_encoding.md R70). -/
def encodeBytes (i : Instr) : List Byte := [highByte (encode i), lowByte (encode i)]

/-! ## The opcode map as mask and match (30_encoding.md R74) -/

/-- One row of the opcode map: `w` is of this row exactly when `w &&& mask = value`. -/
structure OpRow where
  value : Word
  mask : Word
  deriving DecidableEq, Repr

/-- The word matches the row. -/
abbrev OpRow.matches (r : OpRow) (w : Word) : Prop := w &&& r.mask = r.value

/-- The rows of nibbles 0x0 to 0x7. -/
def opRowsLow : List OpRow :=
  [⟨0x00E0#16, 0xFFFF#16⟩, ⟨0x00EE#16, 0xFFFF#16⟩, ⟨0x1000#16, 0xF000#16⟩, ⟨0x2000#16, 0xF000#16⟩,
   ⟨0x3000#16, 0xF000#16⟩, ⟨0x4000#16, 0xF000#16⟩, ⟨0x5000#16, 0xF00F#16⟩, ⟨0x6000#16, 0xF000#16⟩,
   ⟨0x7000#16, 0xF000#16⟩]
/-- The rows of nibble 0x8. -/
def opRows8 : List OpRow :=
  [⟨0x8000#16, 0xF00F#16⟩, ⟨0x8001#16, 0xF00F#16⟩, ⟨0x8002#16, 0xF00F#16⟩, ⟨0x8003#16, 0xF00F#16⟩,
   ⟨0x8004#16, 0xF00F#16⟩, ⟨0x8005#16, 0xF00F#16⟩, ⟨0x8006#16, 0xF00F#16⟩, ⟨0x8007#16, 0xF00F#16⟩,
   ⟨0x800E#16, 0xF00F#16⟩]
/-- The rows of nibbles 0x9 to 0xE. -/
def opRowsHigh : List OpRow :=
  [⟨0x9000#16, 0xF00F#16⟩, ⟨0xA000#16, 0xF000#16⟩, ⟨0xB000#16, 0xF000#16⟩, ⟨0xC000#16, 0xF000#16⟩,
   ⟨0xD000#16, 0xF000#16⟩, ⟨0xE09E#16, 0xF0FF#16⟩, ⟨0xE0A1#16, 0xF0FF#16⟩]
/-- The rows of nibble 0xF. -/
def opRowsF : List OpRow :=
  [⟨0xF007#16, 0xF0FF#16⟩, ⟨0xF00A#16, 0xF0FF#16⟩, ⟨0xF015#16, 0xF0FF#16⟩, ⟨0xF018#16, 0xF0FF#16⟩,
   ⟨0xF01E#16, 0xF0FF#16⟩, ⟨0xF029#16, 0xF0FF#16⟩, ⟨0xF033#16, 0xF0FF#16⟩, ⟨0xF055#16, 0xF0FF#16⟩,
   ⟨0xF065#16, 0xF0FF#16⟩]
/-- The opcode map, 34 rows in the order of 30_encoding.md R74. -/
def opcodeMap : List OpRow := opRowsLow ++ opRows8 ++ opRowsHigh ++ opRowsF

/-- The row of the opcode map an instruction belongs to (30_encoding.md R74). -/
def Instr.row : Instr → OpRow
  | .cls => ⟨0x00E0#16, 0xFFFF#16⟩
  | .ret => ⟨0x00EE#16, 0xFFFF#16⟩
  | .jp _ => ⟨0x1000#16, 0xF000#16⟩
  | .call _ => ⟨0x2000#16, 0xF000#16⟩
  | .seByte _ _ => ⟨0x3000#16, 0xF000#16⟩
  | .sneByte _ _ => ⟨0x4000#16, 0xF000#16⟩
  | .seReg _ _ => ⟨0x5000#16, 0xF00F#16⟩
  | .ldByte _ _ => ⟨0x6000#16, 0xF000#16⟩
  | .addByte _ _ => ⟨0x7000#16, 0xF000#16⟩
  | .ldReg _ _ => ⟨0x8000#16, 0xF00F#16⟩
  | .or _ _ => ⟨0x8001#16, 0xF00F#16⟩
  | .and _ _ => ⟨0x8002#16, 0xF00F#16⟩
  | .xor _ _ => ⟨0x8003#16, 0xF00F#16⟩
  | .addReg _ _ => ⟨0x8004#16, 0xF00F#16⟩
  | .sub _ _ => ⟨0x8005#16, 0xF00F#16⟩
  | .shr _ _ => ⟨0x8006#16, 0xF00F#16⟩
  | .subn _ _ => ⟨0x8007#16, 0xF00F#16⟩
  | .shl _ _ => ⟨0x800E#16, 0xF00F#16⟩
  | .sneReg _ _ => ⟨0x9000#16, 0xF00F#16⟩
  | .ldI _ => ⟨0xA000#16, 0xF000#16⟩
  | .jpV0 _ => ⟨0xB000#16, 0xF000#16⟩
  | .rnd _ _ => ⟨0xC000#16, 0xF000#16⟩
  | .drw _ _ _ => ⟨0xD000#16, 0xF000#16⟩
  | .skp _ => ⟨0xE09E#16, 0xF0FF#16⟩
  | .sknp _ => ⟨0xE0A1#16, 0xF0FF#16⟩
  | .ldVxDT _ => ⟨0xF007#16, 0xF0FF#16⟩
  | .ldVxK _ => ⟨0xF00A#16, 0xF0FF#16⟩
  | .ldDTVx _ => ⟨0xF015#16, 0xF0FF#16⟩
  | .ldSTVx _ => ⟨0xF018#16, 0xF0FF#16⟩
  | .addI _ => ⟨0xF01E#16, 0xF0FF#16⟩
  | .ldF _ => ⟨0xF029#16, 0xF0FF#16⟩
  | .ldB _ => ⟨0xF033#16, 0xF0FF#16⟩
  | .storeRegs _ => ⟨0xF055#16, 0xF0FF#16⟩
  | .loadRegs _ => ⟨0xF065#16, 0xF0FF#16⟩

end Sys2Proof
end

