-- ==== Sys2Proof/Config.lean ====
section
/-! DEFINITION. What is fixed for the block (00_scope.md R5, R6) and the free value of the host's inputs (R7). -/

namespace Sys2Proof

/-- The three inputs of one step (40_step_cycle.md R90): the timer-decrement pulse, the key mask
(bit i is key i, R99) and the random byte (R100). -/
structure StepInput where
  decrementTimers : Bool
  pressedKeys : Word
  rand : Byte
  deriving DecidableEq, Repr, Inhabited

namespace Config

/-- MEM_SIZE of 00_scope.md R5. -/
abbrev memSize : Nat := 4096
/-- FONT_BASE of 00_scope.md R5. -/
abbrev fontBase : Nat := 0x000
/-- FONT_SIZE of 00_scope.md R5: 16 glyphs of `glyphBytes` bytes. -/
abbrev fontSize : Nat := 80
/-- The bytes of one glyph (00_scope.md R5, R6). -/
abbrev glyphBytes : Nat := 5
/-- PROG_BASE of 00_scope.md R5: where the ROM is loaded and where a run begins. -/
abbrev progBase : Nat := 0x200
/-- MAX_ROM of 00_scope.md R5. -/
abbrev maxRom : Nat := memSize - progBase
/-- STACK_DEPTH of 00_scope.md R5. -/
abbrev stackDepth : Nat := 16
/-- FB_WIDTH of 00_scope.md R5. -/
abbrev fbWidth : Nat := 64
/-- FB_HEIGHT of 00_scope.md R5. -/
abbrev fbHeight : Nat := 32
/-- NUM_KEYS of 00_scope.md R5. -/
abbrev numKeys : Nat := 16

/-- The font table is an argument of Load (00_scope.md R6, R230). -/
abbrev Font := Vector Byte fontSize

/-- PRESUMED (log 5), unsafe: the conventional CHIP-8 font, which 00_scope.md R6 gives as the default of
FONT from general knowledge. Glyph d is at 5·d. -/
def defaultFont : Font := #v[
  0xF0#8, 0x90#8, 0x90#8, 0x90#8, 0xF0#8,  0x20#8, 0x60#8, 0x20#8, 0x20#8, 0x70#8,
  0xF0#8, 0x10#8, 0xF0#8, 0x80#8, 0xF0#8,  0xF0#8, 0x10#8, 0xF0#8, 0x10#8, 0xF0#8,
  0x90#8, 0x90#8, 0xF0#8, 0x10#8, 0x10#8,  0xF0#8, 0x80#8, 0xF0#8, 0x10#8, 0xF0#8,
  0xF0#8, 0x80#8, 0xF0#8, 0x90#8, 0xF0#8,  0xF0#8, 0x10#8, 0x20#8, 0x40#8, 0x40#8,
  0xF0#8, 0x90#8, 0xF0#8, 0x90#8, 0xF0#8,  0xF0#8, 0x90#8, 0xF0#8, 0x10#8, 0xF0#8,
  0xF0#8, 0x90#8, 0xF0#8, 0x90#8, 0x90#8,  0xE0#8, 0x90#8, 0xE0#8, 0x90#8, 0xE0#8,
  0xF0#8, 0x80#8, 0x80#8, 0x80#8, 0xF0#8,  0xE0#8, 0x90#8, 0x90#8, 0x90#8, 0xE0#8,
  0xF0#8, 0x80#8, 0xF0#8, 0x80#8, 0xF0#8,  0xF0#8, 0x80#8, 0xF0#8, 0x80#8, 0x80#8]

/-- DESIGN CHOICE (log 2), safe: the inputs of a step for which the host has listed none. A free value: it
has no body, so nothing can evaluate it (40_step_cycle.md R100, 00_scope.md R7: "a free input under no law").
Applied to a counter of the draws made, so two draws need not agree. -/
opaque freeInput : Nat → StepInput

end Config
end Sys2Proof
end

