-- ==== Sys2Proof/Machine/State.lean ====
section
/-! DEFINITION. The state of the block as plain data (10_state.md R20), its value after reset, and the reasons a
step can stop. -/

namespace Sys2Proof.Machine

/-- Memory: the cells that differ from the contents at reset, addresses strictly rising (log 6). -/
structure Memory where
  cells : List Host.Cell
  deriving DecidableEq, Repr

/-- A row of the framebuffer: 64 one-bit pixels, column 0 first (10_state.md R29). -/
abbrev PixelRow := Vector Bool Config.fbWidth
/-- The framebuffer: 32 rows, row 0 first (10_state.md R29). -/
abbrev FrameBuffer := Vector PixelRow Config.fbHeight

/-- The keypress-wait state (10_state.md R30). -/
inductive KeyWait where
  | running
  | waiting (target : Reg)
  deriving DecidableEq, Repr

/-- The seven fatal error kinds (60_exceptions.md R201). -/
inductive FatalKind where
  /-- raised by 2nnn on a full stack -/
  | stackOverflow
  /-- raised by 00EE on an empty stack -/
  | stackUnderflow
  /-- raised by Dxyn, Fx33, Fx55, Fx65 when the last address of the range is 4096 or more -/
  | boundsViolation
  /-- raised by the fetch at a pc of 0xFFF or more -/
  | fetchOutOfRange
  /-- raised by Fx29 when Vx is above 0x0F -/
  | fontIndexRange
  /-- raised by Ex9E and ExA1 when Vx is above 0x0F -/
  | keyIndexRange
  /-- raised by Fx1E when the sum does not fit in I -/
  | indexOverflow
  deriving DecidableEq, Repr

/-- The error record of a fatal error (60_exceptions.md R202). The code is a function of the kind
(`ErrorRecord.code`). `word` is `none` for a fetch that read no word. -/
structure ErrorRecord where
  kind : FatalKind
  word : Option Word
  addr : Word
  deriving DecidableEq, Repr

/-- The run status (10_state.md R31). -/
inductive Status where
  | active
  | halted (e : ErrorRecord)
  deriving DecidableEq, Repr

/-- The unsupported-opcode report of a step (60_exceptions.md R206). Its code is 32 (`Report.code`). -/
structure Report where
  word : Word
  addr : Word
  deriving DecidableEq, Repr

/-- The block. The first eleven fields are the tuple of 10_state.md R20. The last four are the model's own:
the report output of the last step, and the inputs of the steps (40_step_cycle.md R90, logs 1 to 4). -/
structure State where
  /-- V0..VF (R21, R22) -/
  v : Vector Byte 16
  /-- the address register I (R24) -/
  i : Word
  /-- the program counter (R25) -/
  pc : Word
  /-- the delay timer (R26) -/
  dt : Byte
  /-- the sound timer (R27) -/
  st : Byte
  /-- the return addresses (R28) -/
  stack : Vector Word Config.stackDepth
  /-- the stack depth, 0..16 (R28) -/
  sp : Fin (Config.stackDepth + 1)
  /-- the framebuffer (R29) -/
  fb : FrameBuffer
  /-- the keypress-wait state (R30) -/
  wait : KeyWait
  /-- the run status (R31) -/
  status : Status
  /-- the 4096 bytes of memory (20_memory.md R50) -/
  mem : Memory
  /-- the report of the last step, if it made one (40_step_cycle.md R104; log 4) -/
  report : Option Report
  /-- the inputs of the step in progress (40_step_cycle.md R104; log 3) -/
  input : StepInput
  /-- the inputs the host has listed for the coming steps, the next step's first (log 1) -/
  pending : List StepInput
  /-- how many free inputs have been drawn (log 2) -/
  drawn : Nat
  deriving DecidableEq, Repr

/-- Why a step has no next state. -/
inductive Fault where
  /-- A step of a HALTED block: "A block whose `status` is HALTED has no step" (40_step_cycle.md R91; log 8). Raised by
  `step` alone. Safe: the machine stops and claims nothing more. -/
  | halted
  deriving DecidableEq, Repr

/-- Why an instruction has no meaning in the model. -/
inductive Refusal where
  /-- An instruction not modelled yet. Raised by `exec`'s refused arms alone, of which there are none. Safe. -/
  | notModelled (mnemonic : String)
  deriving DecidableEq, Repr

/-- The outcome of an instruction's meaning. -/
abbrev Result := Host.Outcome State Fault Refusal

/-- The block right after Load with the default font and an empty ROM (70_reset_and_hazards.md R231 to R235; logs 5,
6, 7, 20). The four fields of the model's own are empty (logs 1 to 4). -/
def State.reset : State where
  v := Vector.replicate 16 0#8
  i := 0#16
  pc := 0x200#16
  dt := 0#8
  st := 0#8
  stack := Vector.replicate Config.stackDepth 0#16
  sp := 0
  fb := Vector.replicate Config.fbHeight (Vector.replicate Config.fbWidth false)
  wait := .running
  status := .active
  mem := ⟨[]⟩
  report := none
  input := ⟨false, 0#16, 0#8⟩
  pending := []
  drawn := 0

end Sys2Proof.Machine
end

