-- ==== Sys2Proof/Machine/Flags.lean ====
section
/-! DEFINITION. The values VF can receive as a flag (10_state.md R23, 42_alu.md R137 to R141, 44_display.md R172). -/

namespace Sys2Proof.Machine

/-- A flag as the byte VF holds: 1 or 0. -/
def flagByte (b : Bool) : Byte := if b then 1#8 else 0#8

/-- 8xy4: 1 exactly when the unsigned sum exceeds 255 (R137). -/
def carryFlag (p q : Byte) : Byte := flagByte (decide (255 < p.toNat + q.toNat))

/-- 8xy5 (p − q) and 8xy7 (with the operands swapped): 1 when there is no borrow (R138, R140). -/
def noBorrowFlag (p q : Byte) : Byte := flagByte (decide (q.toNat ≤ p.toNat))

/-- 8xy6: the bit shifted out on the right, bit 0 (R139). -/
def shiftedOutRight (v : Byte) : Byte := v &&& 1#8

/-- 8xyE: the bit shifted out on the left, bit 7 (R141). -/
def shiftedOutLeft (v : Byte) : Byte := (v >>> 7) &&& 1#8

/-- Dxyn: whether a pixel that was 1 meets a sprite bit of 1, and so turns to 0 (R172). -/
def collides (old bit : Bool) : Bool := old && bit

end Sys2Proof.Machine
end

