-- ==== Sys2Proof/Machine/Operands.lean ====
section
/-! DEFINITION. The operand forms: register, immediate, 12-bit address, memory range through I, sprite row, key
index (30_encoding.md R71, 20_memory.md R57, R58). -/

namespace Sys2Proof.Machine

/-- The register operand `x[X]` (00_scope.md R9). -/
def State.reg (s : State) (x : Reg) : Byte := s.v[x.val]

/-- `zext_16(NNN)`, the 12-bit address operand (30_encoding.md R71). -/
def addrOperand (nnn : BitVec 12) : Word := nnn.setWidth 16

/-- The base of every data access, as an unbounded natural (20_memory.md R65). -/
def State.base (s : State) : Nat := s.i.toNat

/-- Whether a range of `len` bytes from `base` has an address of 4096 or more. The check is on the LAST address of
the range, and an empty range makes no access (20_memory.md R58, R65). -/
abbrev outOfRange (base len : Nat) : Prop := 0 < len ∧ Config.memSize ≤ base + len - 1

/-- How many registers Fx55 and Fx65 move: V0..Vx inclusive (20_memory.md R57). -/
def regCount (x : Reg) : Nat := x.val + 1

/-- The values of V0..Vx in ascending order, the bytes Fx55 stores (43_index_memory.md R154). -/
def State.regsUpTo (s : State) (x : Reg) : List Byte := (s.v.toList).take (regCount x)

/-- The three decimal digits of a byte, hundreds first (43_index_memory.md R153). -/
def bcdDigits (v : Byte) : List Byte :=
  [BitVec.ofNat 8 (v.toNat / 100), BitVec.ofNat 8 (v.toNat / 10 % 10), BitVec.ofNat 8 (v.toNat % 10)]

/-- Pixel `c` (0..7) of a sprite row: bit 7 − c, so bit 7 is the leftmost (44_display.md R171; log 15). -/
def spriteBit (row : Byte) (c : Nat) : Bool := row.getLsbD (7 - c)

/-- `key(k)` of this step's mask: bit k (40_step_cycle.md R99; log 16). -/
def State.key (s : State) (k : Nat) : Bool := s.input.pressedKeys.getLsbD k

/-- Whether a byte names one of the 16 hex digits, which are the glyphs and the keys (R152, R180). -/
abbrev isHexDigit (b : Byte) : Prop := b.toNat ≤ 0x0F

/-- The address of the glyph of a digit: 5 bytes a glyph from FONT_BASE, exact (43_index_memory.md R152). -/
def glyphAddr (digit : Byte) : Word := BitVec.ofNat 16 (Config.fontBase + digit.toNat * Config.glyphBytes)

end Sys2Proof.Machine
end

