-- ==== Sys2Proof/Machine/Ops.lean ====
section
/-! DEFINITION. The shared operations over registers, pc, stack, memory, framebuffer, timers and inputs
(00_scope.md R9), and taking a fatal error (60_exceptions.md R202). -/

namespace Sys2Proof.Machine

/-! ## Registers -/

/-- `x[X] <- b` (00_scope.md R9). -/
def State.setReg (s : State) (x : Reg) (b : Byte) : State := { s with v := s.v.set x.val b }

/-- VF written as a flag: the same cell as V15 (10_state.md R22). -/
def State.setFlag (s : State) (b : Byte) : State := s.setReg Reg.vf b

/-- The result, then the flag: the order of 8xy4, 8xy5 and 8xy7, so that the flag is what VF holds when X = F
(42_alu.md R130; log 13). -/
def State.setResultThenFlag (s : State) (x : Reg) (result flag : Byte) : State := (s.setReg x result).setFlag flag

/-- The flag, then a function of Vx as it now stands: the order of 8xy6 and 8xyE (42_alu.md R130; log 13). -/
def State.setFlagThenUpdate (s : State) (x : Reg) (flag : Byte) (f : Byte → Byte) : State :=
  (s.setFlag flag).setReg x (f ((s.setFlag flag).reg x))

/-- `I <- v` (00_scope.md R9). -/
def State.setI (s : State) (v : Word) : State := { s with i := v }

/-- The register file after registers 0 up to the count have been loaded, in ascending order (43_index_memory.md R155). -/
def loadedRegs (f : Nat → Byte) (v : Vector Byte 16) : Nat → Vector Byte 16
  | 0 => v
  | k + 1 => (loadedRegs f v k).setIfInBounds k (f k)

/-- V0..Vx, x inclusive, loaded from the bytes `f 0`, `f 1`, … (R155). -/
def State.loadRegsFrom (s : State) (x : Reg) (f : Nat → Byte) : State :=
  { s with v := loadedRegs f s.v (regCount x) }

/-! ## Program counter -/

/-- `pc <- target` (00_scope.md R9). -/
def State.jump (s : State) (target : Word) : State := { s with pc := target }

/-- The advance of the fetch (40_step_cycle.md R94). -/
def State.advance (s : State) : State := s.jump (s.pc + 2#16)

/-- A skip adds a further 2 to the advanced pc (41_control_flow.md R118). -/
def State.skipIf (s : State) (c : Bool) : State := s.jump (if c then s.pc + 2#16 else s.pc)

/-! ## Taking a fatal error (60_exceptions.md R202 to R204)

There is no return from it: "There is no return-from-trap instruction" (R203). -/

/-- `status` becomes HALTED with the record; nothing else changes (R202, R204). -/
def State.halt (s : State) (kind : FatalKind) (word : Option Word) (addr : Word) : State :=
  { s with status := .halted ⟨kind, word, addr⟩ }

/-- `raise Fatal(kind)` inside instruction `i`: the record holds the word being executed and the address a it was
fetched from, which is pc − 2 since pc = a + 2 (R202; log 9). -/
def State.raise (s : State) (kind : FatalKind) (i : Instr) : State := s.halt kind (some (encode i)) (s.pc - 2#16)

/-- `raise Fatal(FETCH_OUT_OF_RANGE)`: no word was read, and pc is the address that could not be fetched (R202). -/
def State.raiseFetch (s : State) : State := s.halt .fetchOutOfRange none s.pc

/-- Every rule tests its error condition before any write of its own (R204): the error is taken in `s`, or the effect
happens. Both are next states. -/
def guardFatal (bad : Prop) [Decidable bad] (kind : FatalKind) (i : Instr) (s effect : State) : Result :=
  if bad then .next (s.raise kind i) else .next effect

/-- The numbering of 60_exceptions.md R201 (log 19). -/
def FatalKind.code : FatalKind → Nat
  | .stackOverflow => 1
  | .stackUnderflow => 2
  | .boundsViolation => 3
  | .fetchOutOfRange => 4
  | .fontIndexRange => 5
  | .keyIndexRange => 6
  | .indexOverflow => 7

/-- The code of an error record (R202). -/
def ErrorRecord.code (e : ErrorRecord) : Nat := e.kind.code

/-- The code of the unsupported-opcode report (R201, R206). -/
def Report.code (_ : Report) : Nat := 32

/-! ## Stack (10_state.md R28) -/

/-- The stack is full: sp = 16. -/
abbrev State.stackFull (s : State) : Prop := s.sp.val = Config.stackDepth

/-- The stack is empty: sp = 0. -/
abbrev State.stackEmpty (s : State) : Prop := s.sp.val = 0

/-- Slot `k` of the stack. -/
def State.slot (s : State) (k : Fin 16) : Word := s.stack[k.val]

/-- Push: `stack[sp]` is written, then sp incremented. A full stack is left alone; the caller has raised then. -/
def State.push (s : State) (w : Word) : State :=
  if h : s.sp.val < Config.stackDepth then
    { s with stack := s.stack.set s.sp.val w, sp := ⟨s.sp.val + 1, Nat.succ_lt_succ h⟩ }
  else s

/-- The depth below the present one is a slot's number. -/
theorem State.sp_pred_lt (s : State) : s.sp.val - 1 < Config.stackDepth := by
  have h := s.sp.isLt
  simp only [Config.stackDepth] at h ⊢
  omega

/-- The slot a pop reads, `stack[sp - 1]`. -/
def State.top (s : State) : Word := s.stack[s.sp.val - 1]'s.sp_pred_lt

/-- Pop: sp decremented, the slot keeps its value (R28; log 25). -/
def State.pop (s : State) : State := { s with sp := ⟨s.sp.val - 1, Nat.lt_succ_of_lt s.sp_pred_lt⟩ }

/-! ## Memory (20_memory.md R50, R53) -/

/-- What an address no cell lists reads as: the contents after Load with the default font and an empty ROM, FONT at
0x000..0x04F and 0 elsewhere (70_reset_and_hazards.md R231; logs 5, 6). -/
def resetByte (a : Nat) : Byte := if h : a < Config.fontSize then Config.defaultFont[a] else 0#8

/-- The byte the cells give for an address. -/
def readCells : List Host.Cell → Nat → Byte
  | [], a => resetByte a
  | (b, w) :: rest, a => if a = b then w else readCells rest a

/-- The cells with `a` listed as `v`, addresses kept rising. -/
def insertCell : List Host.Cell → Nat → Byte → List Host.Cell
  | [], a, v => [(a, v)]
  | (b, w) :: rest, a, v =>
    if a < b then (a, v) :: (b, w) :: rest
    else if a = b then (a, v) :: rest
    else (b, w) :: insertCell rest a v

/-- The cells without an entry for `a`. -/
def eraseCell : List Host.Cell → Nat → List Host.Cell
  | [], _ => []
  | (b, w) :: rest, a => if a = b then rest else (b, w) :: eraseCell rest a

/-- `MemRead(a, 1)` (R53). The callers check the range first. -/
def Memory.read (m : Memory) (a : Nat) : Byte := readCells m.cells a

/-- `MemWrite(a, 1, v)` (R53), keeping the canonical form. An access with a ≥ 4096 is never performed (R53; log 12). -/
def Memory.write (m : Memory) (a : Nat) (v : Byte) : Memory :=
  if Config.memSize ≤ a then m
  else if v = resetByte a then ⟨eraseCell m.cells a⟩
  else ⟨insertCell m.cells a v⟩

/-- The canonical form: addresses strictly rising and below 4096, and no cell equal to what an unlisted address
reads as. -/
abbrev Memory.wf (m : Memory) : Prop :=
  m.cells.Pairwise (fun c d => c.1 < d.1) ∧ ∀ c ∈ m.cells, c.1 < Config.memSize ∧ c.2 ≠ resetByte c.1

/-- The bytes written at ascending addresses from `a`, one after another (20_memory.md R61). -/
def Memory.writeBytes (m : Memory) (a : Nat) : List Byte → Memory
  | [] => m
  | b :: rest => (m.write a b).writeBytes (a + 1) rest

/-- `s` with memory written from `a` on. -/
def State.store (s : State) (a : Nat) (bytes : List Byte) : State := { s with mem := s.mem.writeBytes a bytes }

/-! ## Framebuffer (10_state.md R29) -/

/-- Pixel `FB[r][c]`. -/
def pixel (fb : FrameBuffer) (r : Fin 32) (c : Fin 64) : Bool := fb[r.val][c.val]

/-- `FB[r][c] <- b`. -/
def setPixel (fb : FrameBuffer) (r : Fin 32) (c : Fin 64) (b : Bool) : FrameBuffer :=
  fb.set r.val (fb[r.val].set c.val b)

/-- Every pixel 0 (44_display.md R170). -/
def clearFrame : FrameBuffer := Vector.replicate 32 (Vector.replicate 64 false)

/-- The framebuffer and the collision bit while a sprite is drawn (44_display.md R172). -/
structure Plot where
  fb : FrameBuffer
  hit : Bool
  deriving DecidableEq, Repr

/-- The row of the framebuffer a sprite row falls on: wrapped mod 32 (R172). -/
def wrapRow (cy r : Nat) : Fin 32 := ⟨(cy + r) % 32, Nat.mod_lt _ (by decide)⟩
/-- The column a sprite column falls on: wrapped mod 64 (R172). -/
def wrapCol (cx c : Nat) : Fin 64 := ⟨(cx + c) % 64, Nat.mod_lt _ (by decide)⟩

/-- One pixel of a sprite: new value old XOR bit, the collision OR-accumulated (R172). -/
def plotPixel (cx cy r : Nat) (row : Byte) (p : Plot) (c : Nat) : Plot :=
  { fb := setPixel p.fb (wrapRow cy r) (wrapCol cx c)
      (pixel p.fb (wrapRow cy r) (wrapCol cx c) ^^ spriteBit row c)
    hit := p.hit || collides (pixel p.fb (wrapRow cy r) (wrapCol cx c)) (spriteBit row c) }

/-- One row of a sprite, columns 0..7 ascending (R172). -/
def plotRow (cx cy : Nat) (rowAt : Nat → Byte) (p : Plot) (r : Nat) : Plot :=
  (List.range 8).foldl (plotPixel cx cy r (rowAt r)) p

/-- The whole sprite of `n` rows, rows ascending, the collision bit 0 at first (R172). -/
def plotSprite (cx cy n : Nat) (rowAt : Nat → Byte) (fb : FrameBuffer) : Plot :=
  (List.range n).foldl (plotRow cx cy rowAt) ⟨fb, false⟩

/-- The sprite plot on the state, the collision bit left in VF. The coordinates, the base and the sprite bytes are
those of `s`, before VF is written (R172; log 14). -/
def State.drawSprite (s : State) (cx cy : Byte) (n : Nat) : State :=
  let p := plotSprite cx.toNat cy.toNat n (fun r => s.mem.read (s.base + r)) s.fb
  { s with fb := p.fb }.setFlag (flagByte p.hit)

/-! ## Timers (40_step_cycle.md R92) -/

/-- One decrement, clamped at 0. -/
def tick (t : Byte) : Byte := if t = 0#8 then 0#8 else t - 1#8

/-- Phase (a): both timers decremented if this step's pulse is asserted. -/
def State.applyPulse (s : State) : State :=
  { s with
    dt := if s.input.decrementTimers then tick s.dt else s.dt
    st := if s.input.decrementTimers then tick s.st else s.st }

/-- `DT <- v` (45_timers_keys.md R184). -/
def State.setDT (s : State) (v : Byte) : State := { s with dt := v }
/-- `ST <- v` (45_timers_keys.md R185). -/
def State.setST (s : State) (v : Byte) : State := { s with st := v }

/-! ## Inputs and keys (40_step_cycle.md R90, R93, R99) -/

/-- The inputs of the next step: the first the host has listed, or a free value (logs 1, 2). -/
def State.nextInput (s : State) : StepInput := s.pending.head?.getD (Config.freeInput s.drawn)

/-- The inputs are sampled once, at the start of the step, and held (R104; logs 1 to 3). -/
def State.sample (s : State) : State :=
  { s with
    input := s.nextInput
    pending := s.pending.tail
    drawn := if s.pending.isEmpty then s.drawn + 1 else s.drawn }

/-- A report is an output of one step only (60_exceptions.md R206; log 4). -/
def State.setReport (s : State) (r : Option Report) : State := { s with report := r }

/-- The lowest pressed key of a mask, scanned from key 0 to key 15 (R93). -/
def lowestKey (keys : Word) : Option (Fin 16) := (List.finRange 16).find? fun k => keys.getLsbD k.val

/-- `wait <- w` (00_scope.md R9). -/
def State.setWait (s : State) (w : KeyWait) : State := { s with wait := w }

end Sys2Proof.Machine
end

