-- ==== Sys2Proof/Machine/Cycle.lean ====
section
/-! DEFINITION. The phases of a step before an instruction executes (40_step_cycle.md R91 to R98). -/

namespace Sys2Proof.Machine

/-- The start of every step of an ACTIVE block: the inputs are sampled, the last step's report is gone, and phase (a)
applies the pulse (R92, R104). -/
def State.begin (s : State) : State := (s.sample.setReport none).applyPulse

/-- Phase (b): the lowest pressed key goes to the target and the block runs again; with no key pressed nothing
changes (R93; log 16). -/
def State.resolveWait (s : State) (t : Reg) : State :=
  match lowestKey s.input.pressedKeys with
  | some k => (s.setReg t (BitVec.ofNat 8 k.val)).setWait .running
  | none => s

/-- A fetch needs both bytes: pc + 1 ≤ 0xFFF (20_memory.md R55). -/
abbrev State.canFetch (s : State) : Prop := s.pc.toNat + 1 < Config.memSize

/-- `Fetch(pc)`: two bytes of memory, big-endian (20_memory.md R54). -/
def State.fetchWord (s : State) : Word := joinBytes (s.mem.read s.pc.toNat) (s.mem.read (s.pc.toNat + 1))

/-- What a step comes to before any instruction executes. -/
inductive Prepared where
  /-- the block is HALTED: no step (R91) -/
  | noStep
  /-- the step is over: a wait, a fetch error or an unsupported word (R93, R94, R96) -/
  | done (s : State)
  /-- instruction `i` executes in `s`, where pc = a + 2 (R95) -/
  | execute (i : Instr) (s : State)
  deriving DecidableEq, Repr

/-- Phase (c) up to the execution: the bounds check, the fetch, the advance, the decode (R94), and the execution of an
unsupported word, a reported no-op (R96). -/
def State.fetchDecode (s : State) : Prepared :=
  if s.canFetch then
    match decode s.fetchWord with
    | .instr i => .execute i s.advance
    | .unsupported w => .done (s.advance.setReport (some ⟨w, s.pc⟩))
  else .done s.raiseFetch

/-- The step up to the execution of an instruction (R98). -/
def State.prepare (s : State) : Prepared :=
  match s.status with
  | .halted _ => .noStep
  | .active =>
    match s.wait with
    | .waiting t => .done (s.begin.resolveWait t)
    | .running => s.begin.fetchDecode

/-- The word of an instruction laid where the next step fetches it, with what that takes: the block ACTIVE and
RUNNING, and pc where a word can be fetched (log 7). -/
def State.placeWord (s : State) (w : Word) : State :=
  let pc := if s.canFetch then s.pc else BitVec.ofNat 16 Config.progBase
  { s with pc := pc, wait := .running, status := .active,
           mem := s.mem.writeBytes pc.toNat [highByte w, lowByte w] }

end Sys2Proof.Machine
end

