-- ==== Sys2Proof/Machine/Alu.lean ====
section
/-! DEFINITION. Register loads, arithmetic, logic, shifts, random (42_alu.md). -/

namespace Sys2Proof.Machine

/-- 6xkk (R131). -/
def execLdByte (x : Reg) (kk : Byte) (s : State) : Result := .next (s.setReg x kk)

/-- 7xkk (R132): no flag. -/
def execAddByte (x : Reg) (kk : Byte) (s : State) : Result := .next (s.setReg x (s.reg x + kk))

/-- 8xy0 (R133). -/
def execLdReg (x y : Reg) (s : State) : Result := .next (s.setReg x (s.reg y))

/-- 8xy1 (R134): no flag. -/
def execOr (x y : Reg) (s : State) : Result := .next (s.setReg x (s.reg x ||| s.reg y))

/-- 8xy2 (R135): no flag. -/
def execAnd (x y : Reg) (s : State) : Result := .next (s.setReg x (s.reg x &&& s.reg y))

/-- 8xy3 (R136): no flag. -/
def execXor (x y : Reg) (s : State) : Result := .next (s.setReg x (s.reg x ^^^ s.reg y))

/-- 8xy4 (R137): result, then carry. -/
def execAddReg (x y : Reg) (s : State) : Result :=
  .next (s.setResultThenFlag x (s.reg x + s.reg y) (carryFlag (s.reg x) (s.reg y)))

/-- 8xy5 (R138): result Vx − Vy, then not-borrow. -/
def execSub (x y : Reg) (s : State) : Result :=
  .next (s.setResultThenFlag x (s.reg x - s.reg y) (noBorrowFlag (s.reg x) (s.reg y)))

/-- 8xy6 (R139): flag first, then the shift of Vx as it stands; Vy is ignored (R78). -/
def execShr (x _y : Reg) (s : State) : Result :=
  .next (s.setFlagThenUpdate x (shiftedOutRight (s.reg x)) (fun v => v >>> 1))

/-- 8xy7 (R140): result Vy − Vx, then not-borrow. -/
def execSubn (x y : Reg) (s : State) : Result :=
  .next (s.setResultThenFlag x (s.reg y - s.reg x) (noBorrowFlag (s.reg y) (s.reg x)))

/-- 8xyE (R141): flag first, then the shift of Vx as it stands; Vy is ignored (R78). -/
def execShl (x _y : Reg) (s : State) : Result :=
  .next (s.setFlagThenUpdate x (shiftedOutLeft (s.reg x)) (fun v => v <<< 1))

/-- Cxkk (R142): this step's random byte, masked. -/
def execRnd (x : Reg) (kk : Byte) (s : State) : Result := .next (s.setReg x (s.input.rand &&& kk))

end Sys2Proof.Machine
end

