-- ==== Sys2Proof/Machine/ControlFlow.lean ====
section
/-! DEFINITION. Return, jumps, call, skips (41_control_flow.md). Each runs with pc = a + 2 (40_step_cycle.md R94). -/

namespace Sys2Proof.Machine

/-- 00EE (R110): STACK_UNDERFLOW on an empty stack, else pop into pc. -/
def execRet (s : State) : Result := guardFatal s.stackEmpty .stackUnderflow .ret s (s.pop.jump s.top)

/-- 1nnn (R111). -/
def execJp (nnn : BitVec 12) (s : State) : Result := .next (s.jump (addrOperand nnn))

/-- 2nnn (R112): STACK_OVERFLOW on a full stack, else push the advanced pc and jump. -/
def execCall (nnn : BitVec 12) (s : State) : Result :=
  guardFatal s.stackFull .stackOverflow (.call nnn) s ((s.push s.pc).jump (addrOperand nnn))

/-- 3xkk (R113). -/
def execSeByte (x : Reg) (kk : Byte) (s : State) : Result := .next (s.skipIf (s.reg x == kk))

/-- 4xkk (R114). -/
def execSneByte (x : Reg) (kk : Byte) (s : State) : Result := .next (s.skipIf (s.reg x != kk))

/-- 5xy0 (R115). -/
def execSeReg (x y : Reg) (s : State) : Result := .next (s.skipIf (s.reg x == s.reg y))

/-- 9xy0 (R116). -/
def execSneReg (x y : Reg) (s : State) : Result := .next (s.skipIf (s.reg x != s.reg y))

/-- Bnnn (R117): V0 is always the offset register. -/
def execJpV0 (nnn : BitVec 12) (s : State) : Result :=
  .next (s.jump (addrOperand nnn + (s.reg Reg.v0).setWidth 16))

end Sys2Proof.Machine
end

