-- ==== Sys2Proof/Machine/Display.lean ====
section
/-! DEFINITION. Framebuffer clear and XOR sprite plot (44_display.md). -/

namespace Sys2Proof.Machine

/-- 00E0 (R170). -/
def execCls (s : State) : Result := .next { s with fb := clearFrame }

/-- Dxyn (R172): BOUNDS_VIOLATION when the sprite's last byte lies outside memory, else the plot; n = 0 draws nothing
and clears VF. -/
def execDrw (x y : Reg) (n : Nat) (s : State) : Result :=
  guardFatal (outOfRange s.base n) .boundsViolation (.drw x y n) s (s.drawSprite (s.reg x) (s.reg y) n)

end Sys2Proof.Machine
end

