-- ==== Sys2Proof/Machine/IndexMemory.lean ====
section
/-! DEFINITION. The address register and the memory transfers (43_index_memory.md). None changes I but the first
three. -/

namespace Sys2Proof.Machine

/-- Annn (R150). -/
def execLdI (nnn : BitVec 12) (s : State) : Result := .next (s.setI (addrOperand nnn))

/-- Fx1E (R151): INDEX_OVERFLOW when the exact sum does not fit in 16 bits; no flag. -/
def execAddI (x : Reg) (s : State) : Result :=
  guardFatal (0xFFFF < s.i.toNat + (s.reg x).toNat) .indexOverflow (.addI x) s
    (s.setI (s.i + (s.reg x).setWidth 16))

/-- Fx29 (R152): FONT_INDEX_RANGE when Vx is not a hex digit. -/
def execLdF (x : Reg) (s : State) : Result :=
  guardFatal (¬ isHexDigit (s.reg x)) .fontIndexRange (.ldF x) s (s.setI (glyphAddr (s.reg x)))

/-- Fx33 (R153): three decimal digits at I, I + 1, I + 2. -/
def execLdB (x : Reg) (s : State) : Result :=
  guardFatal (outOfRange s.base 3) .boundsViolation (.ldB x) s (s.store s.base (bcdDigits (s.reg x)))

/-- Fx55 (R154): V0..Vx, x inclusive, at I and up. -/
def execStoreRegs (x : Reg) (s : State) : Result :=
  guardFatal (outOfRange s.base (regCount x)) .boundsViolation (.storeRegs x) s (s.store s.base (s.regsUpTo x))

/-- Fx65 (R155): V0..Vx, x inclusive, from I and up. -/
def execLoadRegs (x : Reg) (s : State) : Result :=
  guardFatal (outOfRange s.base (regCount x)) .boundsViolation (.loadRegs x) s
    (s.loadRegsFrom x (fun k => s.mem.read (s.base + k)))

end Sys2Proof.Machine
end

