-- ==== Sys2Proof/Machine/TimersKeys.lean ====
section
/-! DEFINITION. Keyboard skips, key wait, timers (45_timers_keys.md). -/

namespace Sys2Proof.Machine

/-- Ex9E (R180): KEY_INDEX_RANGE when Vx names no key, else skip if the key is pressed. -/
def execSkp (x : Reg) (s : State) : Result :=
  guardFatal (¬ isHexDigit (s.reg x)) .keyIndexRange (.skp x) s (s.skipIf (s.key (s.reg x).toNat))

/-- ExA1 (R181): KEY_INDEX_RANGE when Vx names no key, else skip if the key is not pressed. -/
def execSknp (x : Reg) (s : State) : Result :=
  guardFatal (¬ isHexDigit (s.reg x)) .keyIndexRange (.sknp x) s (s.skipIf (!s.key (s.reg x).toNat))

/-- Fx07 (R182): the delay timer, as this step's pulse left it. -/
def execLdVxDT (x : Reg) (s : State) : Result := .next (s.setReg x s.dt)

/-- Fx0A (R183): enters the key wait; a later step writes Vx (40_step_cycle.md R93). -/
def execLdVxK (x : Reg) (s : State) : Result := .next (s.setWait (.waiting x))

/-- Fx15 (R184). -/
def execLdDTVx (x : Reg) (s : State) : Result := .next (s.setDT (s.reg x))

/-- Fx18 (R185). -/
def execLdSTVx (x : Reg) (s : State) : Result := .next (s.setST (s.reg x))

end Sys2Proof.Machine
end

