-- ==== Sys2Proof/Machine/Step.lean ====
section
/-! DEFINITION. One step of the block (40_step_cycle.md R98), and where a word is placed for the next step to run. -/

namespace Sys2Proof.Machine

/-- The step: the phases before execution (Machine/Cycle.lean), then the instruction (R95). A HALTED block has no step
(R91; log 8). -/
def step (s : State) : Host.Outcome State Fault Refusal :=
  match s.prepare with
  | .noStep => .fault .halted
  | .done t => .next t
  | .execute i t => exec i t

/-- `s` with the word `w` laid where the next step fetches, so that the next step runs it (log 7). Every instruction is
one 16-bit word, whatever `nbits` says (30_encoding.md R70). -/
def State.withFetchWord (s : State) (_nbits w : Nat) : State := s.placeWord (BitVec.ofNat 16 w)

end Sys2Proof.Machine
end

