-- ==== Sys2Proof/Machine/Assembler.lean ====
section
/-! DEFINITION. The assembler spellings of 30_encoding.md R74 (syntax column) and R82, as tokens: a mnemonic and its
operands, numbers as their values (log 21). -/

namespace Sys2Proof.Machine

/-- The 19 mnemonics (30_encoding.md R82). -/
inductive Mnemonic where
  | cls | ret | jp | call | se | sne | ld | add | or | and | xor | sub | shr | subn | shl | rnd | drw | skp | sknp
  deriving DecidableEq, Repr

/-- An operand of a spelling: V0..VF, a number, or one of the named forms I, [I], DT, ST, K, F, B (R82). -/
inductive AsmOperand where
  | v (x : Reg)
  | num (n : Nat)
  | i | atI | dt | st | k | f | b
  deriving DecidableEq, Repr

/-- One line of assembler. -/
structure AsmLine where
  mnemonic : Mnemonic
  operands : List AsmOperand
  deriving DecidableEq, Repr

/-- The one spelling of an instruction (R82; the syntax column of R74). -/
def disassemble : Instr → AsmLine
  | .cls => ⟨.cls, []⟩
  | .ret => ⟨.ret, []⟩
  | .jp nnn => ⟨.jp, [.num nnn.toNat]⟩
  | .call nnn => ⟨.call, [.num nnn.toNat]⟩
  | .seByte x kk => ⟨.se, [.v x, .num kk.toNat]⟩
  | .sneByte x kk => ⟨.sne, [.v x, .num kk.toNat]⟩
  | .seReg x y => ⟨.se, [.v x, .v y]⟩
  | .ldByte x kk => ⟨.ld, [.v x, .num kk.toNat]⟩
  | .addByte x kk => ⟨.add, [.v x, .num kk.toNat]⟩
  | .ldReg x y => ⟨.ld, [.v x, .v y]⟩
  | .or x y => ⟨.or, [.v x, .v y]⟩
  | .and x y => ⟨.and, [.v x, .v y]⟩
  | .xor x y => ⟨.xor, [.v x, .v y]⟩
  | .addReg x y => ⟨.add, [.v x, .v y]⟩
  | .sub x y => ⟨.sub, [.v x, .v y]⟩
  | .shr x y => ⟨.shr, [.v x, .v y]⟩
  | .subn x y => ⟨.subn, [.v x, .v y]⟩
  | .shl x y => ⟨.shl, [.v x, .v y]⟩
  | .sneReg x y => ⟨.sne, [.v x, .v y]⟩
  | .ldI nnn => ⟨.ld, [.i, .num nnn.toNat]⟩
  | .jpV0 nnn => ⟨.jp, [.v Reg.v0, .num nnn.toNat]⟩
  | .rnd x kk => ⟨.rnd, [.v x, .num kk.toNat]⟩
  | .drw x y n => ⟨.drw, [.v x, .v y, .num n]⟩
  | .skp x => ⟨.skp, [.v x]⟩
  | .sknp x => ⟨.sknp, [.v x]⟩
  | .ldVxDT x => ⟨.ld, [.v x, .dt]⟩
  | .ldVxK x => ⟨.ld, [.v x, .k]⟩
  | .ldDTVx x => ⟨.ld, [.dt, .v x]⟩
  | .ldSTVx x => ⟨.ld, [.st, .v x]⟩
  | .addI x => ⟨.add, [.i, .v x]⟩
  | .ldF x => ⟨.ld, [.f, .v x]⟩
  | .ldB x => ⟨.ld, [.b, .v x]⟩
  | .storeRegs x => ⟨.ld, [.atI, .v x]⟩
  | .loadRegs x => ⟨.ld, [.v x, .atI]⟩

/-- A number written as an immediate byte. -/
def asByte (n : Nat) : Option Byte := if n < 256 then some (BitVec.ofNat 8 n) else none
/-- A number written as a 12-bit address. -/
def asAddr (n : Nat) : Option (BitVec 12) := if n < 4096 then some (BitVec.ofNat 12 n) else none
/-- A number written as a row count, "a decimal or hexadecimal number 0..15" (R82). -/
def asCount (n : Nat) : Option Nat := if n < 16 then some n else none

/-- The instructions of one operand or none. -/
def assembleShort : Mnemonic → List AsmOperand → Option Instr
  | .cls, [] => some .cls
  | .ret, [] => some .ret
  | .jp, [.num n] => (asAddr n).map .jp
  | .call, [.num n] => (asAddr n).map .call
  | .shr, [.v x] => some (.shr x 0)
  | .shl, [.v x] => some (.shl x 0)
  | .skp, [.v x] => some (.skp x)
  | .sknp, [.v x] => some (.sknp x)
  | _, _ => none

/-- The spellings `LD a, b`. -/
def assembleLd : AsmOperand → AsmOperand → Option Instr
  | .v x, .num n => (asByte n).map (.ldByte x)
  | .v x, .v y => some (.ldReg x y)
  | .v x, .dt => some (.ldVxDT x)
  | .v x, .k => some (.ldVxK x)
  | .v x, .atI => some (.loadRegs x)
  | .i, .num n => (asAddr n).map .ldI
  | .dt, .v x => some (.ldDTVx x)
  | .st, .v x => some (.ldSTVx x)
  | .f, .v x => some (.ldF x)
  | .b, .v x => some (.ldB x)
  | .atI, .v x => some (.storeRegs x)
  | _, _ => none

/-- The spellings with a register and a number. -/
def assembleRegNum (m : Mnemonic) (x : Reg) (n : Nat) : Option Instr :=
  match m with
  | .se => (asByte n).map (.seByte x)
  | .sne => (asByte n).map (.sneByte x)
  | .add => (asByte n).map (.addByte x)
  | .rnd => (asByte n).map (.rnd x)
  | .jp => if x = Reg.v0 then (asAddr n).map .jpV0 else none
  | _ => none

/-- The spellings with two registers. -/
def assembleRegReg (m : Mnemonic) (x y : Reg) : Option Instr :=
  match m with
  | .se => some (.seReg x y)
  | .sne => some (.sneReg x y)
  | .or => some (.or x y)
  | .and => some (.and x y)
  | .xor => some (.xor x y)
  | .add => some (.addReg x y)
  | .sub => some (.sub x y)
  | .shr => some (.shr x y)
  | .subn => some (.subn x y)
  | .shl => some (.shl x y)
  | _ => none

/-- The assembler: the one instruction a line spells, or none. There are no pseudo-instructions (R83). A missing Vy of
SHR and SHL stands for y = 0 (R82). -/
def assemble (l : AsmLine) : Option Instr :=
  match l.operands with
  | [p, q] =>
    match l.mnemonic, p, q with
    | .ld, p, q => assembleLd p q
    | .add, .i, .v x => some (.addI x)
    | m, .v x, .num n => assembleRegNum m x n
    | m, .v x, .v y => assembleRegReg m x y
    | _, _, _ => none
  | [.v x, .v y, .num n] => if l.mnemonic = .drw then (asCount n).map (.drw x y) else none
  | ops => assembleShort l.mnemonic ops

end Sys2Proof.Machine
end

