-- ==== Sys2Proof/Machine/Load.lean ====
section
/-! DEFINITION. Load, the block's only reset (70_reset_and_hazards.md R230 to R236), and the host's reads
(40_step_cycle.md R102). -/

namespace Sys2Proof.Machine

/-- What Load gives: a block, or the load-time error ROM_TOO_LARGE, after which no block exists
(60_exceptions.md R207). -/
inductive LoadResult where
  | loaded (s : State)
  | romTooLarge
  deriving DecidableEq, Repr

/-- The code of ROM_TOO_LARGE (60_exceptions.md R201; log 19). -/
def romTooLargeCode : Nat := 16

/-- Memory after Load: the font at 0x000, the ROM at 0x200, every other byte 0 (R231). -/
def loadMemory (font : Config.Font) (rom : List Byte) : Memory :=
  ((⟨[]⟩ : Memory).writeBytes Config.fontBase font.toList).writeBytes Config.progBase rom

/-- Load (R230): takes the font and the ROM, fails when `len(ROM) + 0x200 > 4096`. -/
def load (font : Config.Font) (rom : List Byte) : LoadResult :=
  if Config.memSize < rom.length + Config.progBase then .romTooLarge
  else .loaded { State.reset with mem := loadMemory font rom }

/-! ## The host's reads (R102): copies, none of them changes the state -/

/-- `readFramebuffer()`. -/
def readFramebuffer (s : State) : FrameBuffer := s.fb
/-- `readSoundTimer()`. -/
def readSoundTimer (s : State) : Byte := s.st
/-- `readDelayTimer()`. -/
def readDelayTimer (s : State) : Byte := s.dt
/-- `readStatus()`. -/
def readStatus (s : State) : Status := s.status

/-- The host lists the inputs of one more coming step (R90, R103; log 1). -/
def State.present (s : State) (input : StepInput) : State := { s with pending := s.pending ++ [input] }

end Sys2Proof.Machine
end

