-- ==== Sys2Proof/Safety.lean ====
section
/-! DEFINITION. The terms the claims are written in: what a step executes, what is left unchanged, the invariant, the
end of a run, a safe run. -/

namespace Sys2Proof.Machine

/-! ## What a step executes -/

/-- The block is ACTIVE and RUNNING and can fetch: exactly then the step reads a word (40_step_cycle.md R94, R97). -/
def State.fetches (s : State) : Prop := s.status = .active ∧ s.wait = .running ∧ s.canFetch

/-- The step executes instruction `i` (R95). -/
def State.runs (s : State) (i : Instr) : Prop := s.fetches ∧ decode s.fetchWord = .instr i

/-- The step executes an unsupported word (R96). -/
def State.runsUnsupported (s : State) (w : Word) : Prop := s.fetches ∧ decode s.fetchWord = .unsupported w

/-! ## What is left unchanged -/

/-- Every general register outside `ds` keeps its value. VF is V15, so this covers the flag too. -/
def KeepsRegsExcept (ds : List Reg) (s t : State) : Prop := ∀ r, r ∉ ds → t.reg r = s.reg r

/-- The parts of the state beside the general registers. -/
inductive Part where
  | index | pc | delay | sound | stack | display | wait | status | memory | report | inputs
  deriving DecidableEq, Repr

/-- The part reads in `t` as it does in `s`: every byte of memory, every pixel, every stack slot and the depth. -/
def Part.Kept (s t : State) : Part → Prop
  | .index => t.i = s.i
  | .pc => t.pc = s.pc
  | .delay => t.dt = s.dt
  | .sound => t.st = s.st
  | .stack => t.sp = s.sp ∧ ∀ k, t.slot k = s.slot k
  | .display => ∀ r c, pixel t.fb r c = pixel s.fb r c
  | .wait => t.wait = s.wait
  | .status => t.status = s.status
  | .memory => ∀ a, t.mem.read a = s.mem.read a
  | .report => t.report = s.report
  | .inputs => t.input = s.input ∧ t.pending = s.pending ∧ t.drawn = s.drawn

/-- The frame: from `s` to `t` nothing changes but the registers `ds` and the parts `ps`. -/
def Frame (ds : List Reg) (ps : List Part) (s t : State) : Prop :=
  KeepsRegsExcept ds s t ∧ ∀ p, p ∉ ps → p.Kept s t

/-- Every byte outside the `len` bytes from `lo` reads as before. -/
def KeepsMemoryOutside (lo len : Nat) (s t : State) : Prop :=
  ∀ a, (a < lo ∨ lo + len ≤ a) → t.mem.read a = s.mem.read a

/-- `t` is `s` with fatal error `k` taken in instruction `i` and nothing else changed (60_exceptions.md R202, R204). -/
def Halts (k : FatalKind) (i : Instr) (s t : State) : Prop :=
  Frame [] [.status] s t ∧ t.status = .halted ⟨k, some (encode i), s.pc - 2#16⟩

/-- A timer's value after phase (a) of the next step, as a number: decremented by 1 and clamped at 0 if the pulse is
asserted (40_step_cycle.md R92). -/
def pulsed (s : State) (timer : Byte) : Nat :=
  if s.nextInput.decrementTimers then timer.toNat - 1 else timer.toNat

/-- Both timers of `t` are those of `s` after phase (a). -/
def TimersPulsed (s t : State) : Prop := t.dt.toNat = pulsed s s.dt ∧ t.st.toNat = pulsed s s.st

/-- What every step may change beside the effect of its instruction: the timers by the pulse, the report, the inputs. -/
def stepParts : List Part := [.delay, .sound, .report, .inputs]

/-- The block of `t` is the block of `s`: the eleven components of 10_state.md R20 agree. -/
def SameBlock (s t : State) : Prop :=
  t.v = s.v ∧ t.i = s.i ∧ t.pc = s.pc ∧ t.dt = s.dt ∧ t.st = s.st ∧ t.stack = s.stack ∧ t.sp = s.sp ∧
  t.fb = s.fb ∧ t.wait = s.wait ∧ t.status = s.status ∧ t.mem = s.mem

/-- Two outcomes give the same block and the same report, or both give no next state. -/
def SameOutcome (a b : Result) : Prop :=
  match a, b with
  | .next s, .next t => SameBlock s t ∧ t.report = s.report
  | .fault f, .fault g => f = g
  | .refused f, .refused g => f = g
  | _, _ => False

/-! ## The invariant -/

/-- The record of a fatal error has no word exactly when it is a fetch error (60_exceptions.md R202). -/
def Status.RecordOk : Status → Prop
  | .active => True
  | .halted e => e.word = none ↔ e.kind = .fetchOutOfRange

/-- What every step keeps: memory is in canonical form, pc is at most 0x10FE (10_state.md R25), every stack slot holds
0 or a return address of at most 0x1000, and a HALTED block's record is well formed. -/
def State.Inv (s : State) : Prop :=
  s.mem.wf ∧ s.pc.toNat ≤ 0x10FE ∧ (∀ k, (s.slot k).toNat ≤ 0x1000) ∧ s.status.RecordOk

/-! ## The end of a run (40_step_cycle.md R105) -/

/-- A self-loop: ACTIVE, RUNNING, and the word at pc is 1nnn with nnn = pc. -/
def State.atSelfLoop (s : State) : Prop := ∃ nnn, s.runs (.jp nnn) ∧ addrOperand nnn = s.pc

/-- The run has ended. -/
def State.ended (s : State) : Prop := (∃ e, s.status = .halted e) ∨ s.atSelfLoop

/-- A safe run of `n` steps: it has all its states and no fatal error is raised. -/
def SafeRun (s : State) (n : Nat) : Prop := ∃ t, Host.Core.run Sys2Proof.core n s = .next t ∧ t.status = .active

end Sys2Proof.Machine
end

