-- ==== Sys2Proof/Certificates/Slice0/Obligations.lean ====
section
/-! DEFINITION. The statements for the provers. -/

open Sys2Proof Sys2Proof.Machine

/-! ## Encoding -/

/-- 30_encoding.md R73, R74: the decoder and the encoder are inverse. Every well-formed instruction, with every operand
value its fields admit, is what its word decodes to, and every word that decodes to an instruction is that
instruction's word. -/
def Obligations.DecodeAndEncodeAreInverse : Prop :=
  (∀ i : Instr, i.wellFormed = true → decode (encode i) = .instr i) ∧
  (∀ (w : Word) (i : Instr), decode w = .instr i → i.wellFormed = true ∧ encode i = w)

/-- 30_encoding.md R74: 34 rows, no two overlap, and a word is an instruction exactly when it matches a row, which is
then that instruction's row. -/
def Obligations.OpcodeMapDecidesDecoding : Prop :=
  opcodeMap.length = 34 ∧
  (∀ w : Word, ∀ r ∈ opcodeMap, ∀ r' ∈ opcodeMap, r.matches w → r'.matches w → r = r') ∧
  (∀ (w : Word) (i : Instr), decode w = .instr i → i.row ∈ opcodeMap ∧ i.row.matches w) ∧
  (∀ w : Word, ∀ r ∈ opcodeMap, r.matches w → ∃ i, decode w = .instr i ∧ i.row = r)

/-- 30_encoding.md R77, R79, with R75, R76 and R78: which words are unsupported, nibble by nibble, and which
instructions the second dispatch of nibbles 5, 9, E and F gives. -/
def Obligations.NibblesDecodeOnlyTheirTemplates : Prop :=
  (∀ w : Word, decode w = .unsupported w ↔
    (opField w = 0x0#4 ∧ w ≠ 0x00E0#16 ∧ w ≠ 0x00EE#16) ∨
    ((opField w = 0x5#4 ∨ opField w = 0x9#4) ∧ nField w ≠ 0#4) ∨
    (opField w = 0x8#4 ∧ nField w ∈ [0x8#4, 0x9#4, 0xA#4, 0xB#4, 0xC#4, 0xD#4, 0xF#4]) ∨
    (opField w = 0xE#4 ∧ kkField w ∉ [0x9E#8, 0xA1#8]) ∨
    (opField w = 0xF#4 ∧ kkField w ∉ [0x07#8, 0x0A#8, 0x15#8, 0x18#8, 0x1E#8, 0x29#8, 0x33#8, 0x55#8, 0x65#8])) ∧
  (∀ w : Word, nField w = 0#4 →
    (opField w = 0x5#4 → decode w = .instr (.seReg (xField w) (yField w))) ∧
    (opField w = 0x9#4 → decode w = .instr (.sneReg (xField w) (yField w)))) ∧
  (∀ w : Word, opField w = 0xE#4 →
    (kkField w = 0x9E#8 → decode w = .instr (.skp (xField w))) ∧
    (kkField w = 0xA1#8 → decode w = .instr (.sknp (xField w)))) ∧
  (∀ w : Word, opField w = 0xF#4 →
    (kkField w = 0x07#8 → decode w = .instr (.ldVxDT (xField w))) ∧
    (kkField w = 0x0A#8 → decode w = .instr (.ldVxK (xField w))) ∧
    (kkField w = 0x15#8 → decode w = .instr (.ldDTVx (xField w))) ∧
    (kkField w = 0x18#8 → decode w = .instr (.ldSTVx (xField w))) ∧
    (kkField w = 0x1E#8 → decode w = .instr (.addI (xField w))) ∧
    (kkField w = 0x29#8 → decode w = .instr (.ldF (xField w))) ∧
    (kkField w = 0x33#8 → decode w = .instr (.ldB (xField w))) ∧
    (kkField w = 0x55#8 → decode w = .instr (.storeRegs (xField w))) ∧
    (kkField w = 0x65#8 → decode w = .instr (.loadRegs (xField w))))

/-- 95_test_vectors.md, decode checks: words written out from the patterns decode as the table there says. -/
def Obligations.WordsOfEachFamilyDecode : Prop :=
  decode 0x00E0#16 = .instr .cls ∧ decode 0x2FFF#16 = .instr (.call 0xFFF#12) ∧
  decode 0x3F00#16 = .instr (.seByte 15 0x00#8) ∧ decode 0x812E#16 = .instr (.shl 1 2) ∧
  decode 0xD12F#16 = .instr (.drw 1 2 15) ∧ decode 0xE1A1#16 = .instr (.sknp 1) ∧
  decode 0xF11E#16 = .instr (.addI 1) ∧ decode 0xF165#16 = .instr (.loadRegs 1) ∧
  decode 0x5121#16 = .unsupported 0x5121#16

/-- 30_encoding.md R82 (decision D20, log 21): the one spelling of an instruction assembles to it, and whatever a line
assembles to is well formed. -/
def Obligations.SpellingsAssembleToTheirInstruction : Prop :=
  (∀ i : Instr, i.wellFormed = true → assemble (disassemble i) = some i) ∧
  (∀ (l : AsmLine) (i : Instr), assemble l = some i → i.wellFormed = true)

/-- 20_memory.md R54: the fetched word is `mem[pc]·256 + mem[pc+1]`. -/
def Obligations.FetchIsBigEndian : Prop :=
  ∀ s : State, s.fetchWord.toNat =
    (s.mem.read s.pc.toNat).toNat * 256 + (s.mem.read (s.pc.toNat + 1)).toNat

/-! ## The step cycle -/

/-- 40_step_cycle.md R94, R95: an ACTIVE, RUNNING block whose two bytes at pc lie in memory and decode to `i` executes `i`
in the state where the inputs are sampled, the pulse is applied and pc is advanced by 2. -/
def Obligations.StepRunsTheDecodedInstruction : Prop :=
  ∀ (s : State) (i : Instr), s.status = .active → s.wait = .running → s.pc.toNat + 1 ≤ 0xFFF →
    decode (joinBytes (s.mem.read s.pc.toNat) (s.mem.read (s.pc.toNat + 1))) = .instr i →
    ∃ u, step s = exec i u ∧ u.pc = s.pc + 2#16 ∧ TimersPulsed s u ∧ u.report = none ∧
      u.input = s.nextInput ∧ u.pending = s.pending.tail ∧ Frame [] (.pc :: stepParts) s u

/-- 40_step_cycle.md R91, decision D17, log 8: a HALTED block has no step, however often it is asked. -/
def Obligations.HaltedBlockHasNoStep : Prop :=
  ∀ (s : State) (e : ErrorRecord), s.status = .halted e →
    step s = .fault .halted ∧ ∀ n, Host.Core.run Sys2Proof.core (n + 1) s = .fault .halted

/-- 40_step_cycle.md R97, R98: a step answers a next state exactly when the block is ACTIVE. No instruction, word, input
or wait state stops it. -/
def Obligations.StepAnswersExactlyWhenActive : Prop :=
  ∀ s : State, (∃ t, step s = .next t) ↔ s.status = .active

/-- 40_step_cycle.md R92: phase (a) runs in every step of an ACTIVE block, before the instruction: each timer ends
decremented and clamped unless the instruction writes it, Fx07 reads the decremented value, and phase (a) itself
raises nothing. -/
def Obligations.PulseComesFirstInEveryStep : Prop :=
  ∀ s : State, s.status = .active → s.begin.status = .active ∧ TimersPulsed s s.begin ∧
    ∃ t, step s = .next t ∧
      ((∀ x, ¬ s.runs (.ldDTVx x)) → t.dt.toNat = pulsed s s.dt) ∧
      ((∀ x, ¬ s.runs (.ldSTVx x)) → t.st.toNat = pulsed s s.st) ∧
      (∀ x, s.runs (.ldVxDT x) → (t.reg x).toNat = pulsed s s.dt)

/-- 40_step_cycle.md R93, decision D26: with no key pressed a WAITING block stays as it is, but for the pulse. -/
def Obligations.WaitWithNoKeyStaysWaiting : Prop :=
  ∀ (s : State) (r : Reg), s.status = .active → s.wait = .waiting r → s.nextInput.pressedKeys = 0#16 →
    ∃ t, step s = .next t ∧ TimersPulsed s t ∧ t.report = none ∧ Frame [] stepParts s t

/-- 40_step_cycle.md R93, decision D26: a nonzero mask resolves the wait with the lowest pressed key, and no instruction
is fetched. -/
def Obligations.WaitResolvesToLowestPressedKey : Prop :=
  ∀ (s : State) (r : Reg), s.status = .active → s.wait = .waiting r → s.nextInput.pressedKeys ≠ 0#16 →
    ∃ (t : State) (k : Fin 16), step s = .next t ∧ s.nextInput.pressedKeys.getLsbD k.val = true ∧
      (∀ j : Fin 16, j < k → s.nextInput.pressedKeys.getLsbD j.val = false) ∧
      (t.reg r).toNat = k.val ∧ t.wait = .running ∧ TimersPulsed s t ∧ t.report = none ∧
      Frame [r] (.wait :: stepParts) s t

/-- 20_memory.md R55 and 60_exceptions.md R202, decisions D3, D16, D17: a fetch at pc ≥ 0xFFF halts the block, with no
word in the record, and pc is not advanced. -/
def Obligations.FetchBeyondMemoryHalts : Prop :=
  ∀ s : State, s.status = .active → s.wait = .running → 0xFFF ≤ s.pc.toNat →
    ∃ t, step s = .next t ∧ t.status = .halted ⟨.fetchOutOfRange, none, s.pc⟩ ∧ TimersPulsed s t ∧
      Frame [] (.status :: stepParts) s t

/-- 40_step_cycle.md R96: an unsupported word is a no-op that is reported: pc has advanced by 2, the pulse has been
applied, nothing else changes. -/
def Obligations.UnsupportedWordIsReportedNoOp : Prop :=
  ∀ s : State, s.fetches → (∀ i, decode s.fetchWord ≠ .instr i) →
    ∃ t, step s = .next t ∧ t.report = some ⟨s.fetchWord, s.pc⟩ ∧ t.pc = s.pc + 2#16 ∧ TimersPulsed s t ∧
      Frame [] (.pc :: stepParts) s t

/-- 60_exceptions.md R206, decision D23, log 4: a step reports exactly when it executed an unsupported word. -/
def Obligations.OnlyUnsupportedWordsAreReported : Prop :=
  ∀ (s t : State) (r : Report), step s = .next t →
    (t.report = some r ↔
      s.fetches ∧ (∀ i, decode s.fetchWord ≠ .instr i) ∧ r = ⟨s.fetchWord, s.pc⟩)

/-! ## Fatal errors -/

/-- 60_exceptions.md R202, R204, decisions D5, D16, log 9: fatal errors are precise. A step that ends in HALTED has
changed the status, the timers by the pulse and, for an instruction error, pc by 2, and nothing else; the record holds
the word and the address it was fetched from. -/
def Obligations.FatalErrorsArePrecise : Prop :=
  ∀ (s t : State) (e : ErrorRecord), step s = .next t → t.status = .halted e →
    TimersPulsed s t ∧ t.report = none ∧ e.addr = s.pc ∧ Frame [] (.pc :: .status :: stepParts) s t ∧
    ((e.kind = .fetchOutOfRange ∧ e.word = none ∧ t.pc = s.pc) ∨
     (e.kind ≠ .fetchOutOfRange ∧ e.word = some s.fetchWord ∧ t.pc = s.pc + 2#16))

/-- 60_exceptions.md R201, R205 (decisions D3, D8, D9, D10 for four of the kinds): the only causes of each fatal
error. -/
def Obligations.EachFatalErrorHasOnlyItsCauses : Prop :=
  ∀ (s t : State) (e : ErrorRecord), step s = .next t → t.status = .halted e →
    match e.kind with
    | .stackOverflow => ∃ nnn, s.runs (.call nnn) ∧ s.sp.val = 16
    | .stackUnderflow => s.runs .ret ∧ s.sp.val = 0
    | .boundsViolation =>
      (∃ x y n, s.runs (.drw x y n) ∧ 1 ≤ n ∧ 0xFFF < s.i.toNat + n - 1) ∨
      (∃ x, s.runs (.ldB x) ∧ 0xFFF < s.i.toNat + 2) ∨
      (∃ x : Reg, (s.runs (.storeRegs x) ∨ s.runs (.loadRegs x)) ∧ 0xFFF < s.i.toNat + x.val)
    | .fetchOutOfRange => s.wait = .running ∧ 0xFFF ≤ s.pc.toNat
    | .fontIndexRange => ∃ x, s.runs (.ldF x) ∧ 0x0F < (s.reg x).toNat
    | .keyIndexRange => ∃ x, (s.runs (.skp x) ∨ s.runs (.sknp x)) ∧ 0x0F < (s.reg x).toNat
    | .indexOverflow => ∃ x, s.runs (.addI x) ∧ 0xFFFF < s.i.toNat + (s.reg x).toNat

/-- 60_exceptions.md R201, decision D16, log 19: the numbering of the errors. -/
def Obligations.ErrorCodesAreTheTables : Prop :=
  [FatalKind.stackOverflow, .stackUnderflow, .boundsViolation, .fetchOutOfRange, .fontIndexRange, .keyIndexRange,
    .indexOverflow].map FatalKind.code = [1, 2, 3, 4, 5, 6, 7] ∧
  romTooLargeCode = 16 ∧ ∀ r : Report, r.code = 32

/-! ## Load and reset -/

/-- 70_reset_and_hazards.md R230 to R232, 60_exceptions.md R207: Load of a ROM that fits gives memory and registers as the
rules say, for every font; a longer ROM gives ROM_TOO_LARGE and no state. The clause "every other byte is 0" has no upper
bound: at an address of 4096 or more, which the spec never reads, that the read gives 0 is the model's choice (log 12). -/
def Obligations.LoadBuildsMemoryAndRegisters : Prop :=
  ∀ (font : Config.Font) (rom : List Byte),
    (rom.length + 0x200 ≤ 4096 → ∃ s, load font rom = .loaded s ∧
      (∀ k : Fin 80, s.mem.read k.val = font[k.val]) ∧
      (∀ j : Fin rom.length, s.mem.read (0x200 + j.val) = rom[j.val]) ∧
      (∀ a, 80 ≤ a → (a < 0x200 ∨ 0x200 + rom.length ≤ a) → s.mem.read a = 0#8) ∧
      (∀ r, s.reg r = 0#8) ∧ s.i = 0#16 ∧ s.pc = 0x200#16 ∧ s.dt = 0#8 ∧ s.st = 0#8) ∧
    (4096 < rom.length + 0x200 → load font rom = .romTooLarge)

/-- 70_reset_and_hazards.md R233 to R235 (decision D18, log 20): the stack, framebuffer and control state after any Load. -/
def Obligations.LoadClearsStackFrameAndControl : Prop :=
  ∀ (font : Config.Font) (rom : List Byte) (s : State), load font rom = .loaded s →
    s.sp.val = 0 ∧ (∀ k, s.slot k = 0#16) ∧ (∀ r c, pixel s.fb r c = false) ∧ s.wait = .running ∧
    s.status = .active ∧ s.Inv

/-- The model's choice (logs 5, 6, 7): State.reset is the block after Load of the default font and an empty ROM, and it
meets the invariant. -/
def Obligations.ResetIsLoadOfNoProgram : Prop :=
  load Config.defaultFont [] = .loaded State.reset ∧ State.reset.mem.cells = [] ∧ State.reset.Inv

/-! ## Invariants and whole-machine rules -/

/-- 10_state.md R25, R28, 60_exceptions.md R202: every step keeps the canonical form of memory, pc ≤ 0x10FE, return
addresses ≤ 0x1000, and the shape of the error record. -/
def Obligations.EveryStepKeepsTheInvariant : Prop :=
  ∀ s t : State, s.Inv → step s = .next t → t.Inv

/-- 40_step_cycle.md R101: the block and the step's three inputs fix the block after the step and the report, or that
there is no step. -/
def Obligations.BlockAndInputsDetermineTheStep : Prop :=
  ∀ s t : State, SameBlock s t → s.nextInput = t.nextInput → SameOutcome (step s) (step t)

/-- 40_step_cycle.md R100: only Cxkk reads the random byte. Blocks that agree, stepped with inputs that agree but for the
random byte, agree after any step that does not execute Cxkk. -/
def Obligations.OnlyRndReadsTheRandomByte : Prop :=
  ∀ s t : State, SameBlock s t → s.nextInput.decrementTimers = t.nextInput.decrementTimers →
    s.nextInput.pressedKeys = t.nextInput.pressedKeys → (∀ x kk, ¬ s.runs (.rnd x kk)) →
    SameOutcome (step s) (step t)

/-- 60_exceptions.md R208: a key press has an effect only through Ex9E, ExA1 and a pending Fx0A. -/
def Obligations.OnlyKeySkipsAndWaitsReadTheKeys : Prop :=
  ∀ s t : State, SameBlock s t → s.nextInput.decrementTimers = t.nextInput.decrementTimers →
    s.nextInput.rand = t.nextInput.rand → s.wait = .running →
    (∀ x, ¬ s.runs (.skp x)) → (∀ x, ¬ s.runs (.sknp x)) → SameOutcome (step s) (step t)

/-- 10_state.md R27: no instruction reads the sound timer. Two states that differ in it alone step alike, but for the
sound timer, and either both have a next state or neither has. -/
def Obligations.NoInstructionReadsTheSoundTimer : Prop :=
  ∀ (s : State) (b : Byte),
    (∀ t, step s = .next t → ∃ u, step { s with st := b } = .next u ∧ SameBlock t { u with st := t.st } ∧
      u.report = t.report) ∧
    (step s = .fault .halted → step { s with st := b } = .fault .halted)

/-- 10_state.md R24, R28 to R30, 20_memory.md R57, R64: over one step, the stack changes only by 2nnn and 00EE, the
framebuffer only by 00E0 and Dxyn, memory only by Fx33 and Fx55, I only by Annn, Fx1E and Fx29, and WAITING is entered
only by Fx0A. -/
def Obligations.EachPartChangesOnlyByItsInstructions : Prop :=
  ∀ s t : State, step s = .next t →
    ((∀ nnn, ¬ s.runs (.call nnn)) → ¬ s.runs .ret → Part.Kept s t .stack) ∧
    (¬ s.runs .cls → (∀ x y n, ¬ s.runs (.drw x y n)) → Part.Kept s t .display) ∧
    ((∀ x, ¬ s.runs (.ldB x)) → (∀ x, ¬ s.runs (.storeRegs x)) → Part.Kept s t .memory) ∧
    ((∀ nnn, ¬ s.runs (.ldI nnn)) → (∀ x, ¬ s.runs (.addI x)) → (∀ x, ¬ s.runs (.ldF x)) → Part.Kept s t .index) ∧
    (∀ x, t.wait = .waiting x → s.wait = .waiting x ∨ s.runs (.ldVxK x))

/-- 10_state.md R24: I exceeds 0xFFF only where it already did or by Fx1E. -/
def Obligations.IndexLeavesMemoryOnlyByAddI : Prop :=
  ∀ s t : State, step s = .next t → 0xFFF < t.i.toNat → 0xFFF < s.i.toNat ∨ ∃ x, s.runs (.addI x)

/-- 70_reset_and_hazards.md R239 and 41_control_flow.md R118: an instruction that is no jump, call, return or skip leaves
pc at a + 2, and a skip leaves a + 2 or a + 4. -/
def Obligations.PcAdvancesByTwoOrFour : Prop :=
  ∀ (s t : State) (i : Instr), s.runs i → step s = .next t →
    match i with
    | .jp _ | .call _ | .ret | .jpV0 _ => True
    | .seByte _ _ | .sneByte _ _ | .seReg _ _ | .sneReg _ _ | .skp _ | .sknp _ =>
      t.pc = s.pc + 2#16 ∨ t.pc = s.pc + 4#16
    | .cls | .ldByte _ _ | .addByte _ _ | .ldReg _ _ | .or _ _ | .and _ _ | .xor _ _ | .addReg _ _ | .sub _ _
    | .shr _ _ | .subn _ _ | .shl _ _ | .ldI _ | .rnd _ _ | .drw _ _ _ | .ldVxDT _ | .ldVxK _ | .ldDTVx _
    | .ldSTVx _ | .addI _ | .ldF _ | .ldB _ | .storeRegs _ | .loadRegs _ => t.pc = s.pc + 2#16

/-- 40_step_cycle.md R105 (decision D24): at a self-loop every further step only re-executes the jump and applies the
pulse. -/
def Obligations.SelfLoopRepeatsItself : Prop :=
  ∀ s : State, s.atSelfLoop →
    ∃ t, step s = .next t ∧ t.atSelfLoop ∧ TimersPulsed s t ∧ t.report = none ∧ Frame [] stepParts s t

/-- 41_control_flow.md R110, R112, R118: a call whose target holds a return comes back to the address after the call, the
depth restored and every slot below it untouched. -/
def Obligations.CallThenReturnComesBack : Prop :=
  ∀ (s t : State) (nnn : BitVec 12), s.runs (.call nnn) → s.sp.val < 16 → step s = .next t → t.runs .ret →
    ∃ u, step t = .next u ∧ u.pc = s.pc + 2#16 ∧ u.sp = s.sp ∧ (∀ k : Fin 16, k.val < s.sp.val → u.slot k = s.slot k) ∧
      Frame [] (.pc :: .stack :: stepParts) s u

/-- 20_memory.md R63, 70_reset_and_hazards.md R242 (decision D7): the word Fx55 stores where the next fetch reads is the
word fetched next. -/
def Obligations.StoreIsSeenByTheNextFetch : Prop :=
  ∀ (s : State) (x : Reg), s.mem.wf → s.runs (.storeRegs x) → 1 ≤ x.val → s.i = s.pc + 2#16 →
    s.i.toNat + x.val ≤ 0xFFF → ∃ t, step s = .next t ∧ t.fetches ∧ t.fetchWord = joinBytes (s.reg 0) (s.reg 1)

/-- 45_timers_keys.md R183, 40_step_cycle.md R93, 70_reset_and_hazards.md R241: Fx0A costs its own step and a resolving
step, which executes nothing: the key lands in Vx, pc stays after the Fx0A. That any nonzero mask of the next step resolves
the wait is decision D26 and that bit k of the mask is key k is decision D2 (log 16). -/
def Obligations.KeyWaitCostsAResolvingStep : Prop :=
  ∀ (s : State) (x : Reg), s.runs (.ldVxK x) →
    ∃ t, step s = .next t ∧ t.wait = .waiting x ∧ t.pc = s.pc + 2#16 ∧ t.reg x = s.reg x ∧
      (t.nextInput.pressedKeys ≠ 0#16 → ∃ (u : State) (k : Fin 16), step t = .next u ∧
        t.nextInput.pressedKeys.getLsbD k.val = true ∧ (u.reg x).toNat = k.val ∧ u.wait = .running ∧
        u.pc = s.pc + 2#16 ∧ Frame [x] (.pc :: stepParts) s u)

/-! ## Control flow (41_control_flow.md) -/

/-- R110 (decisions D16, D17 for the HALTED record, D25 for the slot): 00EE pops; on an empty stack it is a fatal
underflow. -/
def Obligations.ReturnPopsOrUnderflows : Prop :=
  decode 0x00EE#16 = .instr .ret ∧
  (∀ (s : State) (k : Fin 16), s.sp.val = k.val + 1 → ∃ t, exec .ret s = .next t ∧
    t.pc = s.slot k ∧ t.sp.val = k.val ∧ (∀ j, t.slot j = s.slot j) ∧ Frame [] [.pc, .stack] s t) ∧
  (∀ s : State, s.sp.val = 0 → ∃ t, exec .ret s = .next t ∧ Halts .stackUnderflow .ret s t)

/-- R111, R117: 1nnn goes to nnn; Bnnn goes to nnn + V0, an exact sum of at most 0x10FE; neither fails, whatever the
target. -/
def Obligations.JumpsGoToTheirTarget : Prop :=
  ∀ (nnn : BitVec 12) (s : State),
    decode (encNNN 0x1#4 nnn) = .instr (.jp nnn) ∧ decode (encNNN 0xB#4 nnn) = .instr (.jpV0 nnn) ∧
    (∃ t, exec (.jp nnn) s = .next t ∧ t.pc.toNat = nnn.toNat ∧ Frame [] [.pc] s t) ∧
    (∃ t, exec (.jpV0 nnn) s = .next t ∧ t.pc.toNat = nnn.toNat + (s.reg Reg.v0).toNat ∧
      t.pc.toNat ≤ 0x10FE ∧ Frame [] [.pc] s t)

/-- R112 (decisions D16, D17 for the HALTED record): 2nnn pushes the advanced pc and goes to nnn; on a full stack it is a
fatal overflow. -/
def Obligations.CallPushesOrOverflows : Prop :=
  ∀ nnn : BitVec 12, decode (encNNN 0x2#4 nnn) = .instr (.call nnn) ∧
    (∀ (s : State) (k : Fin 16), s.sp.val = k.val → ∃ t, exec (.call nnn) s = .next t ∧
      t.slot k = s.pc ∧ t.sp.val = k.val + 1 ∧ (∀ j, j ≠ k → t.slot j = s.slot j) ∧ t.pc.toNat = nnn.toNat ∧
      Frame [] [.pc, .stack] s t) ∧
    (∀ s : State, s.sp.val = 16 → ∃ t, exec (.call nnn) s = .next t ∧ Halts .stackOverflow (.call nnn) s t)

/-- R113 to R116: the four compare skips. -/
def Obligations.CompareSkipsAddTwo : Prop :=
  ∀ (x y : Reg) (kk : Byte) (s : State),
    decode (encXKK 0x3#4 x kk) = .instr (.seByte x kk) ∧ decode (encXKK 0x4#4 x kk) = .instr (.sneByte x kk) ∧
    decode (encXYN 0x5#4 x y 0#4) = .instr (.seReg x y) ∧ decode (encXYN 0x9#4 x y 0#4) = .instr (.sneReg x y) ∧
    (∀ n : BitVec 4, n ≠ 0#4 → decode (encXYN 0x5#4 x y n) = .unsupported (encXYN 0x5#4 x y n) ∧
      decode (encXYN 0x9#4 x y n) = .unsupported (encXYN 0x9#4 x y n)) ∧
    (∃ t, exec (.seByte x kk) s = .next t ∧ t.pc = (if s.reg x = kk then s.pc + 2#16 else s.pc) ∧ Frame [] [.pc] s t) ∧
    (∃ t, exec (.sneByte x kk) s = .next t ∧ t.pc = (if s.reg x = kk then s.pc else s.pc + 2#16) ∧ Frame [] [.pc] s t) ∧
    (∃ t, exec (.seReg x y) s = .next t ∧ t.pc = (if s.reg x = s.reg y then s.pc + 2#16 else s.pc) ∧
      Frame [] [.pc] s t) ∧
    (∃ t, exec (.sneReg x y) s = .next t ∧ t.pc = (if s.reg x = s.reg y then s.pc else s.pc + 2#16) ∧
      Frame [] [.pc] s t)

/-! ## Arithmetic and logic (42_alu.md) -/

/-- R131, R132: 6xkk loads, 7xkk adds mod 256, no flag (VF changes only where X = F). -/
def Obligations.ImmediateLoadAndAdd : Prop :=
  ∀ (x : Reg) (kk : Byte) (s : State),
    decode (encXKK 0x6#4 x kk) = .instr (.ldByte x kk) ∧ decode (encXKK 0x7#4 x kk) = .instr (.addByte x kk) ∧
    (∃ t, exec (.ldByte x kk) s = .next t ∧ t.reg x = kk ∧ Frame [x] [] s t) ∧
    (∃ t, exec (.addByte x kk) s = .next t ∧ (t.reg x).toNat = ((s.reg x).toNat + kk.toNat) % 256 ∧ Frame [x] [] s t)

/-- R133 to R136: 8xy0 copies, 8xy1 to 8xy3 are the bitwise operations, no flag (VF changes only where X = F). -/
def Obligations.RegisterCopyAndLogic : Prop :=
  ∀ (x y : Reg) (s : State),
    decode (encXYN 0x8#4 x y 0#4) = .instr (.ldReg x y) ∧ decode (encXYN 0x8#4 x y 1#4) = .instr (.or x y) ∧
    decode (encXYN 0x8#4 x y 2#4) = .instr (.and x y) ∧ decode (encXYN 0x8#4 x y 3#4) = .instr (.xor x y) ∧
    (∃ t, exec (.ldReg x y) s = .next t ∧ t.reg x = s.reg y ∧ Frame [x] [] s t) ∧
    (∃ t, exec (.or x y) s = .next t ∧
      (∀ k, (t.reg x).getLsbD k = ((s.reg x).getLsbD k || (s.reg y).getLsbD k)) ∧ Frame [x] [] s t) ∧
    (∃ t, exec (.and x y) s = .next t ∧
      (∀ k, (t.reg x).getLsbD k = ((s.reg x).getLsbD k && (s.reg y).getLsbD k)) ∧ Frame [x] [] s t) ∧
    (∃ t, exec (.xor x y) s = .next t ∧
      (∀ k, (t.reg x).getLsbD k = ((s.reg x).getLsbD k ^^ (s.reg y).getLsbD k)) ∧ Frame [x] [] s t)

/-- R137 (X = F: decision D11, log 13): 8xy4 gives the sum mod 256 and the carry in VF; where X = F the carry is what VF
holds. -/
def Obligations.AddRegistersSetsCarry : Prop :=
  ∀ (x y : Reg) (s : State), ∃ t, exec (.addReg x y) s = .next t ∧
    (x ≠ Reg.vf → (t.reg x).toNat = ((s.reg x).toNat + (s.reg y).toNat) % 256) ∧
    (t.reg Reg.vf).toNat = (if 255 < (s.reg x).toNat + (s.reg y).toNat then 1 else 0) ∧ Frame [x, Reg.vf] [] s t

/-- R138, R140 (X = F: decision D11, log 13): 8xy5 gives Vx − Vy and 8xy7 gives Vy − Vx, mod 256, with VF = 1 exactly when
there is no borrow. -/
def Obligations.SubtractionsSetNotBorrow : Prop :=
  ∀ (x y : Reg) (s : State),
    (∃ t, exec (.sub x y) s = .next t ∧
      (x ≠ Reg.vf → (t.reg x).toNat = ((s.reg x).toNat + 256 - (s.reg y).toNat) % 256) ∧
      (t.reg Reg.vf).toNat = (if (s.reg y).toNat ≤ (s.reg x).toNat then 1 else 0) ∧ Frame [x, Reg.vf] [] s t) ∧
    (∃ t, exec (.subn x y) s = .next t ∧
      (x ≠ Reg.vf → (t.reg x).toNat = ((s.reg y).toNat + 256 - (s.reg x).toNat) % 256) ∧
      (t.reg Reg.vf).toNat = (if (s.reg x).toNat ≤ (s.reg y).toNat then 1 else 0) ∧ Frame [x, Reg.vf] [] s t)

/-- R139, R141, R78 (X = F: decision D11, log 13): the shifts act on Vx, whatever y is; VF is the bit shifted out; where
X = F the shift acts on the flag just written. -/
def Obligations.ShiftsActOnVxAndSetVf : Prop :=
  ∀ (x y : Reg) (s : State),
    (∃ t, exec (.shr x y) s = .next t ∧ (∀ y', exec (.shr x y') s = .next t) ∧
      (x ≠ Reg.vf → (t.reg x).toNat = (s.reg x).toNat / 2 ∧ (t.reg Reg.vf).toNat = (s.reg x).toNat % 2) ∧
      (x = Reg.vf → (t.reg Reg.vf).toNat = 0) ∧ Frame [x, Reg.vf] [] s t) ∧
    (∃ t, exec (.shl x y) s = .next t ∧ (∀ y', exec (.shl x y') s = .next t) ∧
      (x ≠ Reg.vf → (t.reg x).toNat = 2 * (s.reg x).toNat % 256 ∧ (t.reg Reg.vf).toNat = (s.reg x).toNat / 128) ∧
      (x = Reg.vf → (t.reg Reg.vf).toNat = 2 * ((s.reg Reg.vf).toNat / 128)) ∧ Frame [x, Reg.vf] [] s t)

/-- R142: Cxkk gives the step's random byte masked by kk, so 0 in every bit where kk is 0; no flag. -/
def Obligations.RndMasksTheRandomByte : Prop :=
  ∀ (x : Reg) (kk : Byte) (s : State), decode (encXKK 0xC#4 x kk) = .instr (.rnd x kk) ∧
    ∃ t, exec (.rnd x kk) s = .next t ∧
      (∀ k, (t.reg x).getLsbD k = (s.input.rand.getLsbD k && kk.getLsbD k)) ∧
      (kk = 0#8 → t.reg x = 0#8) ∧ (kk = 0xFF#8 → t.reg x = s.input.rand) ∧ Frame [x] [] s t

/-! ## Index register and memory transfers (43_index_memory.md) -/

/-- R150: Annn loads the 12-bit address into I. -/
def Obligations.LoadIndexIsZeroExtended : Prop :=
  ∀ (nnn : BitVec 12) (s : State), decode (encNNN 0xA#4 nnn) = .instr (.ldI nnn) ∧
    ∃ t, exec (.ldI nnn) s = .next t ∧ t.i.toNat = nnn.toNat ∧ Frame [] [.index] s t

/-- R151 (decision D8): Fx1E is the exact sum where it fits in 16 bits, with no flag, and a fatal error where not. -/
def Obligations.AddIndexIsExactOrHalts : Prop :=
  ∀ (x : Reg) (s : State),
    (s.i.toNat + (s.reg x).toNat ≤ 0xFFFF → ∃ t, exec (.addI x) s = .next t ∧
      t.i.toNat = s.i.toNat + (s.reg x).toNat ∧ Frame [] [.index] s t) ∧
    (0xFFFF < s.i.toNat + (s.reg x).toNat → ∃ t, exec (.addI x) s = .next t ∧ Halts .indexOverflow (.addI x) s t)

/-- R152 (decision D9): Fx29 points I at glyph Vx, 5 bytes a glyph from 0, for the hex digits, and is a fatal error
otherwise. -/
def Obligations.LoadFontPointsAtGlyphOrHalts : Prop :=
  ∀ (x : Reg) (s : State),
    ((s.reg x).toNat ≤ 0x0F → ∃ t, exec (.ldF x) s = .next t ∧ t.i.toNat = (s.reg x).toNat * 5 ∧
      Frame [] [.index] s t) ∧
    (0x0F < (s.reg x).toNat → ∃ t, exec (.ldF x) s = .next t ∧ Halts .fontIndexRange (.ldF x) s t)

/-- R153, 20_memory.md R58 (decision D5): Fx33 stores the decimal digits of Vx at I, I + 1, I + 2, changing no other byte
and not I; where I + 2 ≥ 4096 it writes nothing and is a fatal error. The address stored to is `s.base`. -/
def Obligations.BcdStoresThreeDigitsOrHalts : Prop :=
  ∀ (x : Reg) (s : State),
    (s.mem.wf → s.i.toNat + 2 ≤ 0xFFF → ∃ t, exec (.ldB x) s = .next t ∧
      (t.mem.read s.base).toNat = (s.reg x).toNat / 100 ∧
      (t.mem.read (s.base + 1)).toNat = (s.reg x).toNat / 10 % 10 ∧
      (t.mem.read (s.base + 2)).toNat = (s.reg x).toNat % 10 ∧
      KeepsMemoryOutside s.base 3 s t ∧ t.mem.wf ∧ Frame [] [.memory] s t) ∧
    (0xFFF < s.i.toNat + 2 → ∃ t, exec (.ldB x) s = .next t ∧ Halts .boundsViolation (.ldB x) s t)

/-- R154, 20_memory.md R58 (decision D5): Fx55 stores V0..Vx, x inclusive, at I and up, changing no other byte and not I;
where I + x ≥ 4096 it writes nothing and is a fatal error. -/
def Obligations.StoreRegistersInclusiveOrHalts : Prop :=
  ∀ (x : Reg) (s : State),
    (s.mem.wf → s.i.toNat + x.val ≤ 0xFFF → ∃ t, exec (.storeRegs x) s = .next t ∧
      (∀ k : Reg, k.val ≤ x.val → t.mem.read (s.base + k.val) = s.reg k) ∧
      KeepsMemoryOutside s.base (x.val + 1) s t ∧ t.mem.wf ∧ Frame [] [.memory] s t) ∧
    (0xFFF < s.i.toNat + x.val → ∃ t, exec (.storeRegs x) s = .next t ∧ Halts .boundsViolation (.storeRegs x) s t)

/-- R155, 20_memory.md R58 (decision D5): Fx65 loads V0..Vx, x inclusive, from I and up, leaving the registers above Vx,
memory and I; where I + x ≥ 4096 it writes nothing and is a fatal error. -/
def Obligations.LoadRegistersInclusiveOrHalts : Prop :=
  ∀ (x : Reg) (s : State),
    (s.i.toNat + x.val ≤ 0xFFF → ∃ t, exec (.loadRegs x) s = .next t ∧
      (∀ k : Reg, k.val ≤ x.val → t.reg k = s.mem.read (s.base + k.val)) ∧
      (∀ k : Reg, x.val < k.val → t.reg k = s.reg k) ∧
      Frame ((List.finRange 16).filter fun k => k.val ≤ x.val) [] s t) ∧
    (0xFFF < s.i.toNat + x.val → ∃ t, exec (.loadRegs x) s = .next t ∧ Halts .boundsViolation (.loadRegs x) s t)

/-! ## Display (44_display.md) -/

/-- R170: 00E0 clears every pixel and nothing else. -/
def Obligations.ClearClearsEveryPixel : Prop :=
  decode 0x00E0#16 = .instr .cls ∧
  ∀ s : State, ∃ t, exec .cls s = .next t ∧ (∀ r c, pixel t.fb r c = false) ∧ Frame [] [.display] s t

/-- R171, R172 (decisions D5, D12, D13, D14, logs 14, 15): Dxyn XORs sprite pixel (r, c), bit 7 − c of byte I + r, onto
row (Vy + r) mod 32 and column (Vx + c) mod 64, changes no other pixel, and leaves in VF whether a 1 pixel met a 1 bit;
where the last sprite byte lies beyond memory it changes nothing and is a fatal error. -/
def Obligations.DrawXorsTheSpriteAndSetsCollision : Prop :=
  ∀ (x y : Reg) (n : Nat) (s : State), n < 16 →
    ((n = 0 ∨ s.i.toNat + n - 1 ≤ 0xFFF) → ∃ t, exec (.drw x y n) s = .next t ∧
      (∀ (r c : Nat) (R : Fin 32) (C : Fin 64), r < n → c < 8 → R.val = ((s.reg y).toNat + r) % 32 →
        C.val = ((s.reg x).toNat + c) % 64 →
        pixel t.fb R C = (pixel s.fb R C ^^ (s.mem.read (s.base + r)).getLsbD (7 - c))) ∧
      (∀ (R : Fin 32) (C : Fin 64),
        (∀ r c, r < n → c < 8 → ¬ (R.val = ((s.reg y).toNat + r) % 32 ∧ C.val = ((s.reg x).toNat + c) % 64)) →
        pixel t.fb R C = pixel s.fb R C) ∧
      (t.reg Reg.vf = 1#8 ∨ t.reg Reg.vf = 0#8) ∧
      (t.reg Reg.vf = 1#8 ↔ ∃ (r c : Nat) (R : Fin 32) (C : Fin 64), r < n ∧ c < 8 ∧
        R.val = ((s.reg y).toNat + r) % 32 ∧ C.val = ((s.reg x).toNat + c) % 64 ∧
        pixel s.fb R C = true ∧ (s.mem.read (s.base + r)).getLsbD (7 - c) = true) ∧
      Frame [Reg.vf] [.display] s t) ∧
    (1 ≤ n → 0xFFF < s.i.toNat + n - 1 → ∃ t, exec (.drw x y n) s = .next t ∧ Halts .boundsViolation (.drw x y n) s t)

/-- R172 with 90_conflicts.md C7: drawing the same sprite again at the same place gives every pixel back, and the second
draw collides exactly when some 1 bit of the sprite fell on a pixel that was 0 before the first draw (log 24 says where this
departs from Q4 of 95_test_vectors.md). That column c is bit 7 − c is decision D14 (log 15, PRESUMED); the forms X = F and
Y = F rest on decision D12 and the form n = 0 on D13 (log 14). -/
def Obligations.DrawingTwiceRestoresTheFrame : Prop :=
  ∀ (x y : Reg) (n : Nat) (s t : State), n < 16 → (n = 0 ∨ s.i.toNat + n - 1 ≤ 0xFFF) →
    exec (.drw x y n) s = .next t → t.reg x = s.reg x → t.reg y = s.reg y →
    ∃ u, exec (.drw x y n) t = .next u ∧ (∀ R C, pixel u.fb R C = pixel s.fb R C) ∧
      (u.reg Reg.vf = 1#8 ↔ ∃ (r c : Nat) (R : Fin 32) (C : Fin 64), r < n ∧ c < 8 ∧
        R.val = ((s.reg y).toNat + r) % 32 ∧ C.val = ((s.reg x).toNat + c) % 64 ∧
        pixel s.fb R C = false ∧ (s.mem.read (s.base + r)).getLsbD (7 - c) = true)

/-! ## Timers and keys (45_timers_keys.md) -/

/-- R180, R181 (decisions D2, D10, logs 16, 17): the key skips test bit Vx of this step's mask; a Vx that names no key is
a fatal error. -/
def Obligations.KeySkipsTestTheMaskOrHalt : Prop :=
  ∀ (x : Reg) (s : State),
    ((s.reg x).toNat ≤ 0x0F →
      (∃ t, exec (.skp x) s = .next t ∧
        t.pc = (if s.input.pressedKeys.getLsbD (s.reg x).toNat then s.pc + 2#16 else s.pc) ∧ Frame [] [.pc] s t) ∧
      (∃ t, exec (.sknp x) s = .next t ∧
        t.pc = (if s.input.pressedKeys.getLsbD (s.reg x).toNat then s.pc else s.pc + 2#16) ∧ Frame [] [.pc] s t)) ∧
    (0x0F < (s.reg x).toNat →
      (∃ t, exec (.skp x) s = .next t ∧ Halts .keyIndexRange (.skp x) s t) ∧
      (∃ t, exec (.sknp x) s = .next t ∧ Halts .keyIndexRange (.sknp x) s t))

/-- R182, R184, R185: Fx07 reads the delay timer, Fx15 and Fx18 write the timers. Over a whole step, Fx07 reads the value
this step's pulse left, and the pulse does not touch what Fx15 and Fx18 write. -/
def Obligations.TimerTransfersComeAfterThePulse : Prop :=
  ∀ (x : Reg) (s : State),
    decode (encXKK 0xF#4 x 0x07#8) = .instr (.ldVxDT x) ∧ decode (encXKK 0xF#4 x 0x15#8) = .instr (.ldDTVx x) ∧
    decode (encXKK 0xF#4 x 0x18#8) = .instr (.ldSTVx x) ∧
    (∃ t, exec (.ldVxDT x) s = .next t ∧ t.reg x = s.dt ∧ Frame [x] [] s t) ∧
    (∃ t, exec (.ldDTVx x) s = .next t ∧ t.dt = s.reg x ∧ Frame [] [.delay] s t) ∧
    (∃ t, exec (.ldSTVx x) s = .next t ∧ t.st = s.reg x ∧ Frame [] [.sound] s t) ∧
    (s.runs (.ldVxDT x) → ∃ t, step s = .next t ∧ (t.reg x).toNat = pulsed s s.dt) ∧
    (s.runs (.ldDTVx x) → ∃ t, step s = .next t ∧ t.dt = s.reg x) ∧
    (s.runs (.ldSTVx x) → ∃ t, step s = .next t ∧ t.st = s.reg x)

/-- R183: Fx0A enters WAITING(x) and writes no register. -/
def Obligations.KeyWaitIsEnteredByFx0A : Prop :=
  ∀ (x : Reg) (s : State), ∃ t, exec (.ldVxK x) s = .next t ∧ t.wait = .waiting x ∧ Frame [] [.wait] s t
end

