-- ==== Sys2Proof/Laws/State.lean ====
section
/-! SUPPORT. One lemma per field per update of State, true by rfl, so that no proof unfolds a record update. The
operations that are a primitive update under another name have their one unfolding lemma first. -/

namespace Sys2Proof.Machine

/-! ## Operations that are a primitive update -/

@[simp] theorem State.setFlag_eq (s : State) (b : Byte) : s.setFlag b = s.setReg Reg.vf b := rfl
@[simp] theorem State.setResultThenFlag_eq (s : State) (x : Reg) (r b : Byte) :
    s.setResultThenFlag x r b = (s.setReg x r).setReg Reg.vf b := rfl
@[simp] theorem State.setFlagThenUpdate_eq (s : State) (x : Reg) (b : Byte) (f : Byte → Byte) :
    s.setFlagThenUpdate x b f = (s.setReg Reg.vf b).setReg x (f ((s.setReg Reg.vf b).reg x)) := rfl
@[simp] theorem State.advance_eq (s : State) : s.advance = s.jump (s.pc + 2#16) := rfl
@[simp] theorem State.skipIf_eq (s : State) (c : Bool) : s.skipIf c = s.jump (if c then s.pc + 2#16 else s.pc) := rfl
@[simp] theorem State.raise_eq (s : State) (k : FatalKind) (i : Instr) :
    s.raise k i = s.halt k (some (encode i)) (s.pc - 2#16) := rfl
@[simp] theorem State.raiseFetch_eq (s : State) : s.raiseFetch = s.halt .fetchOutOfRange none s.pc := rfl

/-! ## begin (the timers have lemmas of their own in Laws/Frames.lean) -/

@[simp] theorem State.begin_v (s : State) : s.begin.v = s.v := rfl
@[simp] theorem State.begin_i (s : State) : s.begin.i = s.i := rfl
@[simp] theorem State.begin_pc (s : State) : s.begin.pc = s.pc := rfl
@[simp] theorem State.begin_stack (s : State) : s.begin.stack = s.stack := rfl
@[simp] theorem State.begin_sp (s : State) : s.begin.sp = s.sp := rfl
@[simp] theorem State.begin_fb (s : State) : s.begin.fb = s.fb := rfl
@[simp] theorem State.begin_wait (s : State) : s.begin.wait = s.wait := rfl
@[simp] theorem State.begin_status (s : State) : s.begin.status = s.status := rfl
@[simp] theorem State.begin_mem (s : State) : s.begin.mem = s.mem := rfl
@[simp] theorem State.begin_report (s : State) : s.begin.report = none := rfl
@[simp] theorem State.begin_input (s : State) : s.begin.input = s.nextInput := rfl
@[simp] theorem State.begin_pending (s : State) : s.begin.pending = s.pending.tail := rfl
@[simp] theorem State.reg_begin (s : State) (y : Reg) : s.begin.reg y = s.reg y := rfl
@[simp] theorem State.slot_begin (s : State) (j : Fin 16) : s.begin.slot j = s.slot j := rfl
@[simp] theorem State.base_begin (s : State) : s.begin.base = s.base := rfl

/-! ## setReg -/

@[simp] theorem State.setReg_v (s : State) (x : Reg) (b : Byte) : (s.setReg x b).v = s.v.set x.val b := rfl
@[simp] theorem State.setReg_i (s : State) (x : Reg) (b : Byte) : (s.setReg x b).i = s.i := rfl
@[simp] theorem State.setReg_pc (s : State) (x : Reg) (b : Byte) : (s.setReg x b).pc = s.pc := rfl
@[simp] theorem State.setReg_dt (s : State) (x : Reg) (b : Byte) : (s.setReg x b).dt = s.dt := rfl
@[simp] theorem State.setReg_st (s : State) (x : Reg) (b : Byte) : (s.setReg x b).st = s.st := rfl
@[simp] theorem State.setReg_stack (s : State) (x : Reg) (b : Byte) : (s.setReg x b).stack = s.stack := rfl
@[simp] theorem State.setReg_sp (s : State) (x : Reg) (b : Byte) : (s.setReg x b).sp = s.sp := rfl
@[simp] theorem State.setReg_fb (s : State) (x : Reg) (b : Byte) : (s.setReg x b).fb = s.fb := rfl
@[simp] theorem State.setReg_wait (s : State) (x : Reg) (b : Byte) : (s.setReg x b).wait = s.wait := rfl
@[simp] theorem State.setReg_status (s : State) (x : Reg) (b : Byte) : (s.setReg x b).status = s.status := rfl
@[simp] theorem State.setReg_mem (s : State) (x : Reg) (b : Byte) : (s.setReg x b).mem = s.mem := rfl
@[simp] theorem State.setReg_report (s : State) (x : Reg) (b : Byte) : (s.setReg x b).report = s.report := rfl
@[simp] theorem State.setReg_input (s : State) (x : Reg) (b : Byte) : (s.setReg x b).input = s.input := rfl
@[simp] theorem State.setReg_pending (s : State) (x : Reg) (b : Byte) : (s.setReg x b).pending = s.pending := rfl
@[simp] theorem State.setReg_drawn (s : State) (x : Reg) (b : Byte) : (s.setReg x b).drawn = s.drawn := rfl

/-! ## setI -/

@[simp] theorem State.setI_v (s : State) (w : Word) : (s.setI w).v = s.v := rfl
@[simp] theorem State.setI_i (s : State) (w : Word) : (s.setI w).i = w := rfl
@[simp] theorem State.setI_pc (s : State) (w : Word) : (s.setI w).pc = s.pc := rfl
@[simp] theorem State.setI_dt (s : State) (w : Word) : (s.setI w).dt = s.dt := rfl
@[simp] theorem State.setI_st (s : State) (w : Word) : (s.setI w).st = s.st := rfl
@[simp] theorem State.setI_stack (s : State) (w : Word) : (s.setI w).stack = s.stack := rfl
@[simp] theorem State.setI_sp (s : State) (w : Word) : (s.setI w).sp = s.sp := rfl
@[simp] theorem State.setI_fb (s : State) (w : Word) : (s.setI w).fb = s.fb := rfl
@[simp] theorem State.setI_wait (s : State) (w : Word) : (s.setI w).wait = s.wait := rfl
@[simp] theorem State.setI_status (s : State) (w : Word) : (s.setI w).status = s.status := rfl
@[simp] theorem State.setI_mem (s : State) (w : Word) : (s.setI w).mem = s.mem := rfl
@[simp] theorem State.setI_report (s : State) (w : Word) : (s.setI w).report = s.report := rfl
@[simp] theorem State.setI_input (s : State) (w : Word) : (s.setI w).input = s.input := rfl
@[simp] theorem State.setI_pending (s : State) (w : Word) : (s.setI w).pending = s.pending := rfl
@[simp] theorem State.setI_drawn (s : State) (w : Word) : (s.setI w).drawn = s.drawn := rfl

/-! ## loadRegsFrom -/

@[simp] theorem State.loadRegsFrom_v (s : State) (x : Reg) (f : Nat → Byte) :
    (s.loadRegsFrom x f).v = loadedRegs f s.v (regCount x) := rfl
@[simp] theorem State.loadRegsFrom_i (s : State) (x : Reg) (f : Nat → Byte) : (s.loadRegsFrom x f).i = s.i := rfl
@[simp] theorem State.loadRegsFrom_pc (s : State) (x : Reg) (f : Nat → Byte) : (s.loadRegsFrom x f).pc = s.pc := rfl
@[simp] theorem State.loadRegsFrom_dt (s : State) (x : Reg) (f : Nat → Byte) : (s.loadRegsFrom x f).dt = s.dt := rfl
@[simp] theorem State.loadRegsFrom_st (s : State) (x : Reg) (f : Nat → Byte) : (s.loadRegsFrom x f).st = s.st := rfl
@[simp] theorem State.loadRegsFrom_stack (s : State) (x : Reg) (f : Nat → Byte) :
    (s.loadRegsFrom x f).stack = s.stack := rfl
@[simp] theorem State.loadRegsFrom_sp (s : State) (x : Reg) (f : Nat → Byte) : (s.loadRegsFrom x f).sp = s.sp := rfl
@[simp] theorem State.loadRegsFrom_fb (s : State) (x : Reg) (f : Nat → Byte) : (s.loadRegsFrom x f).fb = s.fb := rfl
@[simp] theorem State.loadRegsFrom_wait (s : State) (x : Reg) (f : Nat → Byte) :
    (s.loadRegsFrom x f).wait = s.wait := rfl
@[simp] theorem State.loadRegsFrom_status (s : State) (x : Reg) (f : Nat → Byte) :
    (s.loadRegsFrom x f).status = s.status := rfl
@[simp] theorem State.loadRegsFrom_mem (s : State) (x : Reg) (f : Nat → Byte) :
    (s.loadRegsFrom x f).mem = s.mem := rfl
@[simp] theorem State.loadRegsFrom_report (s : State) (x : Reg) (f : Nat → Byte) :
    (s.loadRegsFrom x f).report = s.report := rfl
@[simp] theorem State.loadRegsFrom_input (s : State) (x : Reg) (f : Nat → Byte) :
    (s.loadRegsFrom x f).input = s.input := rfl
@[simp] theorem State.loadRegsFrom_pending (s : State) (x : Reg) (f : Nat → Byte) :
    (s.loadRegsFrom x f).pending = s.pending := rfl
@[simp] theorem State.loadRegsFrom_drawn (s : State) (x : Reg) (f : Nat → Byte) :
    (s.loadRegsFrom x f).drawn = s.drawn := rfl

/-! ## jump -/

@[simp] theorem State.jump_v (s : State) (w : Word) : (s.jump w).v = s.v := rfl
@[simp] theorem State.jump_i (s : State) (w : Word) : (s.jump w).i = s.i := rfl
@[simp] theorem State.jump_pc (s : State) (w : Word) : (s.jump w).pc = w := rfl
@[simp] theorem State.jump_dt (s : State) (w : Word) : (s.jump w).dt = s.dt := rfl
@[simp] theorem State.jump_st (s : State) (w : Word) : (s.jump w).st = s.st := rfl
@[simp] theorem State.jump_stack (s : State) (w : Word) : (s.jump w).stack = s.stack := rfl
@[simp] theorem State.jump_sp (s : State) (w : Word) : (s.jump w).sp = s.sp := rfl
@[simp] theorem State.jump_fb (s : State) (w : Word) : (s.jump w).fb = s.fb := rfl
@[simp] theorem State.jump_wait (s : State) (w : Word) : (s.jump w).wait = s.wait := rfl
@[simp] theorem State.jump_status (s : State) (w : Word) : (s.jump w).status = s.status := rfl
@[simp] theorem State.jump_mem (s : State) (w : Word) : (s.jump w).mem = s.mem := rfl
@[simp] theorem State.jump_report (s : State) (w : Word) : (s.jump w).report = s.report := rfl
@[simp] theorem State.jump_input (s : State) (w : Word) : (s.jump w).input = s.input := rfl
@[simp] theorem State.jump_pending (s : State) (w : Word) : (s.jump w).pending = s.pending := rfl
@[simp] theorem State.jump_drawn (s : State) (w : Word) : (s.jump w).drawn = s.drawn := rfl

/-! ## halt -/

@[simp] theorem State.halt_v (s : State) (k : FatalKind) (w : Option Word) (a : Word) : (s.halt k w a).v = s.v := rfl
@[simp] theorem State.halt_i (s : State) (k : FatalKind) (w : Option Word) (a : Word) : (s.halt k w a).i = s.i := rfl
@[simp] theorem State.halt_pc (s : State) (k : FatalKind) (w : Option Word) (a : Word) :
    (s.halt k w a).pc = s.pc := rfl
@[simp] theorem State.halt_dt (s : State) (k : FatalKind) (w : Option Word) (a : Word) :
    (s.halt k w a).dt = s.dt := rfl
@[simp] theorem State.halt_st (s : State) (k : FatalKind) (w : Option Word) (a : Word) :
    (s.halt k w a).st = s.st := rfl
@[simp] theorem State.halt_stack (s : State) (k : FatalKind) (w : Option Word) (a : Word) :
    (s.halt k w a).stack = s.stack := rfl
@[simp] theorem State.halt_sp (s : State) (k : FatalKind) (w : Option Word) (a : Word) :
    (s.halt k w a).sp = s.sp := rfl
@[simp] theorem State.halt_fb (s : State) (k : FatalKind) (w : Option Word) (a : Word) :
    (s.halt k w a).fb = s.fb := rfl
@[simp] theorem State.halt_wait (s : State) (k : FatalKind) (w : Option Word) (a : Word) :
    (s.halt k w a).wait = s.wait := rfl
@[simp] theorem State.halt_status (s : State) (k : FatalKind) (w : Option Word) (a : Word) :
    (s.halt k w a).status = .halted ⟨k, w, a⟩ := rfl
@[simp] theorem State.halt_mem (s : State) (k : FatalKind) (w : Option Word) (a : Word) :
    (s.halt k w a).mem = s.mem := rfl
@[simp] theorem State.halt_report (s : State) (k : FatalKind) (w : Option Word) (a : Word) :
    (s.halt k w a).report = s.report := rfl
@[simp] theorem State.halt_input (s : State) (k : FatalKind) (w : Option Word) (a : Word) :
    (s.halt k w a).input = s.input := rfl
@[simp] theorem State.halt_pending (s : State) (k : FatalKind) (w : Option Word) (a : Word) :
    (s.halt k w a).pending = s.pending := rfl
@[simp] theorem State.halt_drawn (s : State) (k : FatalKind) (w : Option Word) (a : Word) :
    (s.halt k w a).drawn = s.drawn := rfl

/-! ## pop -/

@[simp] theorem State.pop_v (s : State) : s.pop.v = s.v := rfl
@[simp] theorem State.pop_i (s : State) : s.pop.i = s.i := rfl
@[simp] theorem State.pop_pc (s : State) : s.pop.pc = s.pc := rfl
@[simp] theorem State.pop_dt (s : State) : s.pop.dt = s.dt := rfl
@[simp] theorem State.pop_st (s : State) : s.pop.st = s.st := rfl
@[simp] theorem State.pop_stack (s : State) : s.pop.stack = s.stack := rfl
@[simp] theorem State.pop_sp (s : State) : s.pop.sp = ⟨s.sp.val - 1, Nat.lt_succ_of_lt s.sp_pred_lt⟩ := rfl
@[simp] theorem State.pop_fb (s : State) : s.pop.fb = s.fb := rfl
@[simp] theorem State.pop_wait (s : State) : s.pop.wait = s.wait := rfl
@[simp] theorem State.pop_status (s : State) : s.pop.status = s.status := rfl
@[simp] theorem State.pop_mem (s : State) : s.pop.mem = s.mem := rfl
@[simp] theorem State.pop_report (s : State) : s.pop.report = s.report := rfl
@[simp] theorem State.pop_input (s : State) : s.pop.input = s.input := rfl
@[simp] theorem State.pop_pending (s : State) : s.pop.pending = s.pending := rfl
@[simp] theorem State.pop_drawn (s : State) : s.pop.drawn = s.drawn := rfl

/-! ## store -/

@[simp] theorem State.store_v (s : State) (a : Nat) (bs : List Byte) : (s.store a bs).v = s.v := rfl
@[simp] theorem State.store_i (s : State) (a : Nat) (bs : List Byte) : (s.store a bs).i = s.i := rfl
@[simp] theorem State.store_pc (s : State) (a : Nat) (bs : List Byte) : (s.store a bs).pc = s.pc := rfl
@[simp] theorem State.store_dt (s : State) (a : Nat) (bs : List Byte) : (s.store a bs).dt = s.dt := rfl
@[simp] theorem State.store_st (s : State) (a : Nat) (bs : List Byte) : (s.store a bs).st = s.st := rfl
@[simp] theorem State.store_stack (s : State) (a : Nat) (bs : List Byte) : (s.store a bs).stack = s.stack := rfl
@[simp] theorem State.store_sp (s : State) (a : Nat) (bs : List Byte) : (s.store a bs).sp = s.sp := rfl
@[simp] theorem State.store_fb (s : State) (a : Nat) (bs : List Byte) : (s.store a bs).fb = s.fb := rfl
@[simp] theorem State.store_wait (s : State) (a : Nat) (bs : List Byte) : (s.store a bs).wait = s.wait := rfl
@[simp] theorem State.store_status (s : State) (a : Nat) (bs : List Byte) : (s.store a bs).status = s.status := rfl
@[simp] theorem State.store_mem (s : State) (a : Nat) (bs : List Byte) :
    (s.store a bs).mem = s.mem.writeBytes a bs := rfl
@[simp] theorem State.store_report (s : State) (a : Nat) (bs : List Byte) : (s.store a bs).report = s.report := rfl
@[simp] theorem State.store_input (s : State) (a : Nat) (bs : List Byte) : (s.store a bs).input = s.input := rfl
@[simp] theorem State.store_pending (s : State) (a : Nat) (bs : List Byte) : (s.store a bs).pending = s.pending := rfl
@[simp] theorem State.store_drawn (s : State) (a : Nat) (bs : List Byte) : (s.store a bs).drawn = s.drawn := rfl

/-! ## setDT -/

@[simp] theorem State.setDT_v (s : State) (b : Byte) : (s.setDT b).v = s.v := rfl
@[simp] theorem State.setDT_i (s : State) (b : Byte) : (s.setDT b).i = s.i := rfl
@[simp] theorem State.setDT_pc (s : State) (b : Byte) : (s.setDT b).pc = s.pc := rfl
@[simp] theorem State.setDT_dt (s : State) (b : Byte) : (s.setDT b).dt = b := rfl
@[simp] theorem State.setDT_st (s : State) (b : Byte) : (s.setDT b).st = s.st := rfl
@[simp] theorem State.setDT_stack (s : State) (b : Byte) : (s.setDT b).stack = s.stack := rfl
@[simp] theorem State.setDT_sp (s : State) (b : Byte) : (s.setDT b).sp = s.sp := rfl
@[simp] theorem State.setDT_fb (s : State) (b : Byte) : (s.setDT b).fb = s.fb := rfl
@[simp] theorem State.setDT_wait (s : State) (b : Byte) : (s.setDT b).wait = s.wait := rfl
@[simp] theorem State.setDT_status (s : State) (b : Byte) : (s.setDT b).status = s.status := rfl
@[simp] theorem State.setDT_mem (s : State) (b : Byte) : (s.setDT b).mem = s.mem := rfl
@[simp] theorem State.setDT_report (s : State) (b : Byte) : (s.setDT b).report = s.report := rfl
@[simp] theorem State.setDT_input (s : State) (b : Byte) : (s.setDT b).input = s.input := rfl
@[simp] theorem State.setDT_pending (s : State) (b : Byte) : (s.setDT b).pending = s.pending := rfl
@[simp] theorem State.setDT_drawn (s : State) (b : Byte) : (s.setDT b).drawn = s.drawn := rfl

/-! ## setST -/

@[simp] theorem State.setST_v (s : State) (b : Byte) : (s.setST b).v = s.v := rfl
@[simp] theorem State.setST_i (s : State) (b : Byte) : (s.setST b).i = s.i := rfl
@[simp] theorem State.setST_pc (s : State) (b : Byte) : (s.setST b).pc = s.pc := rfl
@[simp] theorem State.setST_dt (s : State) (b : Byte) : (s.setST b).dt = s.dt := rfl
@[simp] theorem State.setST_st (s : State) (b : Byte) : (s.setST b).st = b := rfl
@[simp] theorem State.setST_stack (s : State) (b : Byte) : (s.setST b).stack = s.stack := rfl
@[simp] theorem State.setST_sp (s : State) (b : Byte) : (s.setST b).sp = s.sp := rfl
@[simp] theorem State.setST_fb (s : State) (b : Byte) : (s.setST b).fb = s.fb := rfl
@[simp] theorem State.setST_wait (s : State) (b : Byte) : (s.setST b).wait = s.wait := rfl
@[simp] theorem State.setST_status (s : State) (b : Byte) : (s.setST b).status = s.status := rfl
@[simp] theorem State.setST_mem (s : State) (b : Byte) : (s.setST b).mem = s.mem := rfl
@[simp] theorem State.setST_report (s : State) (b : Byte) : (s.setST b).report = s.report := rfl
@[simp] theorem State.setST_input (s : State) (b : Byte) : (s.setST b).input = s.input := rfl
@[simp] theorem State.setST_pending (s : State) (b : Byte) : (s.setST b).pending = s.pending := rfl
@[simp] theorem State.setST_drawn (s : State) (b : Byte) : (s.setST b).drawn = s.drawn := rfl

/-! ## applyPulse -/

@[simp] theorem State.applyPulse_v (s : State) : s.applyPulse.v = s.v := rfl
@[simp] theorem State.applyPulse_i (s : State) : s.applyPulse.i = s.i := rfl
@[simp] theorem State.applyPulse_pc (s : State) : s.applyPulse.pc = s.pc := rfl
@[simp] theorem State.applyPulse_dt (s : State) :
    s.applyPulse.dt = if s.input.decrementTimers then tick s.dt else s.dt := rfl
@[simp] theorem State.applyPulse_st (s : State) :
    s.applyPulse.st = if s.input.decrementTimers then tick s.st else s.st := rfl
@[simp] theorem State.applyPulse_stack (s : State) : s.applyPulse.stack = s.stack := rfl
@[simp] theorem State.applyPulse_sp (s : State) : s.applyPulse.sp = s.sp := rfl
@[simp] theorem State.applyPulse_fb (s : State) : s.applyPulse.fb = s.fb := rfl
@[simp] theorem State.applyPulse_wait (s : State) : s.applyPulse.wait = s.wait := rfl
@[simp] theorem State.applyPulse_status (s : State) : s.applyPulse.status = s.status := rfl
@[simp] theorem State.applyPulse_mem (s : State) : s.applyPulse.mem = s.mem := rfl
@[simp] theorem State.applyPulse_report (s : State) : s.applyPulse.report = s.report := rfl
@[simp] theorem State.applyPulse_input (s : State) : s.applyPulse.input = s.input := rfl
@[simp] theorem State.applyPulse_pending (s : State) : s.applyPulse.pending = s.pending := rfl
@[simp] theorem State.applyPulse_drawn (s : State) : s.applyPulse.drawn = s.drawn := rfl

/-! ## sample -/

@[simp] theorem State.sample_v (s : State) : s.sample.v = s.v := rfl
@[simp] theorem State.sample_i (s : State) : s.sample.i = s.i := rfl
@[simp] theorem State.sample_pc (s : State) : s.sample.pc = s.pc := rfl
@[simp] theorem State.sample_dt (s : State) : s.sample.dt = s.dt := rfl
@[simp] theorem State.sample_st (s : State) : s.sample.st = s.st := rfl
@[simp] theorem State.sample_stack (s : State) : s.sample.stack = s.stack := rfl
@[simp] theorem State.sample_sp (s : State) : s.sample.sp = s.sp := rfl
@[simp] theorem State.sample_fb (s : State) : s.sample.fb = s.fb := rfl
@[simp] theorem State.sample_wait (s : State) : s.sample.wait = s.wait := rfl
@[simp] theorem State.sample_status (s : State) : s.sample.status = s.status := rfl
@[simp] theorem State.sample_mem (s : State) : s.sample.mem = s.mem := rfl
@[simp] theorem State.sample_report (s : State) : s.sample.report = s.report := rfl
@[simp] theorem State.sample_input (s : State) : s.sample.input = s.nextInput := rfl
@[simp] theorem State.sample_pending (s : State) : s.sample.pending = s.pending.tail := rfl
@[simp] theorem State.sample_drawn (s : State) :
    s.sample.drawn = if s.pending.isEmpty then s.drawn + 1 else s.drawn := rfl

/-! ## setReport -/

@[simp] theorem State.setReport_v (s : State) (r : Option Report) : (s.setReport r).v = s.v := rfl
@[simp] theorem State.setReport_i (s : State) (r : Option Report) : (s.setReport r).i = s.i := rfl
@[simp] theorem State.setReport_pc (s : State) (r : Option Report) : (s.setReport r).pc = s.pc := rfl
@[simp] theorem State.setReport_dt (s : State) (r : Option Report) : (s.setReport r).dt = s.dt := rfl
@[simp] theorem State.setReport_st (s : State) (r : Option Report) : (s.setReport r).st = s.st := rfl
@[simp] theorem State.setReport_stack (s : State) (r : Option Report) : (s.setReport r).stack = s.stack := rfl
@[simp] theorem State.setReport_sp (s : State) (r : Option Report) : (s.setReport r).sp = s.sp := rfl
@[simp] theorem State.setReport_fb (s : State) (r : Option Report) : (s.setReport r).fb = s.fb := rfl
@[simp] theorem State.setReport_wait (s : State) (r : Option Report) : (s.setReport r).wait = s.wait := rfl
@[simp] theorem State.setReport_status (s : State) (r : Option Report) : (s.setReport r).status = s.status := rfl
@[simp] theorem State.setReport_mem (s : State) (r : Option Report) : (s.setReport r).mem = s.mem := rfl
@[simp] theorem State.setReport_report (s : State) (r : Option Report) : (s.setReport r).report = r := rfl
@[simp] theorem State.setReport_input (s : State) (r : Option Report) : (s.setReport r).input = s.input := rfl
@[simp] theorem State.setReport_pending (s : State) (r : Option Report) : (s.setReport r).pending = s.pending := rfl
@[simp] theorem State.setReport_drawn (s : State) (r : Option Report) : (s.setReport r).drawn = s.drawn := rfl

/-! ## setWait -/

@[simp] theorem State.setWait_v (s : State) (w : KeyWait) : (s.setWait w).v = s.v := rfl
@[simp] theorem State.setWait_i (s : State) (w : KeyWait) : (s.setWait w).i = s.i := rfl
@[simp] theorem State.setWait_pc (s : State) (w : KeyWait) : (s.setWait w).pc = s.pc := rfl
@[simp] theorem State.setWait_dt (s : State) (w : KeyWait) : (s.setWait w).dt = s.dt := rfl
@[simp] theorem State.setWait_st (s : State) (w : KeyWait) : (s.setWait w).st = s.st := rfl
@[simp] theorem State.setWait_stack (s : State) (w : KeyWait) : (s.setWait w).stack = s.stack := rfl
@[simp] theorem State.setWait_sp (s : State) (w : KeyWait) : (s.setWait w).sp = s.sp := rfl
@[simp] theorem State.setWait_fb (s : State) (w : KeyWait) : (s.setWait w).fb = s.fb := rfl
@[simp] theorem State.setWait_wait (s : State) (w : KeyWait) : (s.setWait w).wait = w := rfl
@[simp] theorem State.setWait_status (s : State) (w : KeyWait) : (s.setWait w).status = s.status := rfl
@[simp] theorem State.setWait_mem (s : State) (w : KeyWait) : (s.setWait w).mem = s.mem := rfl
@[simp] theorem State.setWait_report (s : State) (w : KeyWait) : (s.setWait w).report = s.report := rfl
@[simp] theorem State.setWait_input (s : State) (w : KeyWait) : (s.setWait w).input = s.input := rfl
@[simp] theorem State.setWait_pending (s : State) (w : KeyWait) : (s.setWait w).pending = s.pending := rfl
@[simp] theorem State.setWait_drawn (s : State) (w : KeyWait) : (s.setWait w).drawn = s.drawn := rfl

/-! ## push, whose two fields depend on the depth -/

@[simp] theorem State.push_full (s : State) (w : Word) (h : ¬ s.sp.val < Config.stackDepth) : s.push w = s := by
  simp [State.push, h]
theorem State.push_stack (s : State) (w : Word) (h : s.sp.val < Config.stackDepth) :
    (s.push w).stack = s.stack.set s.sp.val w := by simp [State.push, h]
theorem State.push_sp (s : State) (w : Word) (h : s.sp.val < Config.stackDepth) :
    (s.push w).sp.val = s.sp.val + 1 := by simp [State.push, h]
@[simp] theorem State.push_v (s : State) (w : Word) : (s.push w).v = s.v := by unfold State.push; split <;> rfl
@[simp] theorem State.push_i (s : State) (w : Word) : (s.push w).i = s.i := by unfold State.push; split <;> rfl
@[simp] theorem State.push_pc (s : State) (w : Word) : (s.push w).pc = s.pc := by unfold State.push; split <;> rfl
@[simp] theorem State.push_dt (s : State) (w : Word) : (s.push w).dt = s.dt := by unfold State.push; split <;> rfl
@[simp] theorem State.push_st (s : State) (w : Word) : (s.push w).st = s.st := by unfold State.push; split <;> rfl
@[simp] theorem State.push_fb (s : State) (w : Word) : (s.push w).fb = s.fb := by unfold State.push; split <;> rfl
@[simp] theorem State.push_wait (s : State) (w : Word) : (s.push w).wait = s.wait := by unfold State.push; split <;> rfl
@[simp] theorem State.push_status (s : State) (w : Word) : (s.push w).status = s.status := by unfold State.push; split <;> rfl
@[simp] theorem State.push_mem (s : State) (w : Word) : (s.push w).mem = s.mem := by unfold State.push; split <;> rfl
@[simp] theorem State.push_report (s : State) (w : Word) : (s.push w).report = s.report := by unfold State.push; split <;> rfl
@[simp] theorem State.push_input (s : State) (w : Word) : (s.push w).input = s.input := by unfold State.push; split <;> rfl
@[simp] theorem State.push_pending (s : State) (w : Word) : (s.push w).pending = s.pending := by unfold State.push; split <;> rfl
@[simp] theorem State.push_drawn (s : State) (w : Word) : (s.push w).drawn = s.drawn := by unfold State.push; split <;> rfl

/-! ## Registers and slots through their readers -/

/-- Reading a register after writing one. -/
theorem State.reg_setReg (s : State) (x y : Reg) (b : Byte) :
    (s.setReg x b).reg y = if y = x then b else s.reg y := by
  simp only [State.reg, State.setReg_v, Vector.getElem_set, Fin.ext_iff, eq_comm]

@[simp] theorem State.reg_setReg_self (s : State) (x : Reg) (b : Byte) : (s.setReg x b).reg x = b := by
  simp [State.reg_setReg]

@[simp] theorem State.reg_setReg_ne (s : State) {x y : Reg} (b : Byte) (h : y ≠ x) :
    (s.setReg x b).reg y = s.reg y := by simp [State.reg_setReg, h]

theorem loadedRegs_getElem (f : Nat → Byte) (v : Vector Byte 16) (n k : Nat) (hk : k < 16) :
    (loadedRegs f v n)[k] = if k < n then f k else v[k] := by
  induction n with
  | zero => rfl
  | succ n ih =>
    simp only [loadedRegs, Vector.getElem_setIfInBounds, ih]
    split_ifs <;> first | omega | simp_all

/-- Reading a register after a bulk load. -/
theorem State.reg_loadRegsFrom (s : State) (x y : Reg) (f : Nat → Byte) :
    (s.loadRegsFrom x f).reg y = if y.val ≤ x.val then f y.val else s.reg y := by
  simp only [State.reg, State.loadRegsFrom_v, loadedRegs_getElem, regCount, Nat.lt_succ_iff]

/-- Reading a slot after a push. -/
theorem State.slot_push (s : State) (w : Word) (k : Fin 16) (h : s.sp.val < Config.stackDepth) :
    (s.push w).slot k = if k.val = s.sp.val then w else s.slot k := by
  simp only [State.slot, State.push_stack s w h, Vector.getElem_set, eq_comm]

/-- The slot a pop reads is the slot below the depth. -/
theorem State.top_eq_slot (s : State) : s.top = s.slot ⟨s.sp.val - 1, s.sp_pred_lt⟩ := rfl

@[simp] theorem State.slot_setReg (s : State) (j : Fin 16) (x : Reg) (b : Byte) : (s.setReg x b).slot j = s.slot j := rfl
@[simp] theorem State.base_setReg (s : State) (x : Reg) (b : Byte) : (s.setReg x b).base = s.base := rfl
@[simp] theorem State.reg_setI (s : State) (y : Reg) (w : Word) : (s.setI w).reg y = s.reg y := rfl
@[simp] theorem State.slot_setI (s : State) (j : Fin 16) (w : Word) : (s.setI w).slot j = s.slot j := rfl
@[simp] theorem State.slot_loadRegsFrom (s : State) (j : Fin 16) (x : Reg) (f : Nat → Byte) : (s.loadRegsFrom x f).slot j = s.slot j := rfl
@[simp] theorem State.base_loadRegsFrom (s : State) (x : Reg) (f : Nat → Byte) : (s.loadRegsFrom x f).base = s.base := rfl
@[simp] theorem State.reg_jump (s : State) (y : Reg) (w : Word) : (s.jump w).reg y = s.reg y := rfl
@[simp] theorem State.slot_jump (s : State) (j : Fin 16) (w : Word) : (s.jump w).slot j = s.slot j := rfl
@[simp] theorem State.base_jump (s : State) (w : Word) : (s.jump w).base = s.base := rfl
@[simp] theorem State.reg_halt (s : State) (y : Reg) (k : FatalKind) (w : Option Word) (a : Word) : (s.halt k w a).reg y = s.reg y := rfl
@[simp] theorem State.slot_halt (s : State) (j : Fin 16) (k : FatalKind) (w : Option Word) (a : Word) : (s.halt k w a).slot j = s.slot j := rfl
@[simp] theorem State.base_halt (s : State) (k : FatalKind) (w : Option Word) (a : Word) : (s.halt k w a).base = s.base := rfl
@[simp] theorem State.reg_pop (s : State) (y : Reg) : s.pop.reg y = s.reg y := rfl
@[simp] theorem State.slot_pop (s : State) (j : Fin 16) : s.pop.slot j = s.slot j := rfl
@[simp] theorem State.base_pop (s : State) : s.pop.base = s.base := rfl
@[simp] theorem State.reg_store (s : State) (y : Reg) (a : Nat) (bs : List Byte) : (s.store a bs).reg y = s.reg y := rfl
@[simp] theorem State.slot_store (s : State) (j : Fin 16) (a : Nat) (bs : List Byte) : (s.store a bs).slot j = s.slot j := rfl
@[simp] theorem State.base_store (s : State) (a : Nat) (bs : List Byte) : (s.store a bs).base = s.base := rfl
@[simp] theorem State.reg_setDT (s : State) (y : Reg) (b : Byte) : (s.setDT b).reg y = s.reg y := rfl
@[simp] theorem State.slot_setDT (s : State) (j : Fin 16) (b : Byte) : (s.setDT b).slot j = s.slot j := rfl
@[simp] theorem State.base_setDT (s : State) (b : Byte) : (s.setDT b).base = s.base := rfl
@[simp] theorem State.reg_setST (s : State) (y : Reg) (b : Byte) : (s.setST b).reg y = s.reg y := rfl
@[simp] theorem State.slot_setST (s : State) (j : Fin 16) (b : Byte) : (s.setST b).slot j = s.slot j := rfl
@[simp] theorem State.base_setST (s : State) (b : Byte) : (s.setST b).base = s.base := rfl
@[simp] theorem State.reg_applyPulse (s : State) (y : Reg) : s.applyPulse.reg y = s.reg y := rfl
@[simp] theorem State.slot_applyPulse (s : State) (j : Fin 16) : s.applyPulse.slot j = s.slot j := rfl
@[simp] theorem State.base_applyPulse (s : State) : s.applyPulse.base = s.base := rfl
@[simp] theorem State.reg_sample (s : State) (y : Reg) : s.sample.reg y = s.reg y := rfl
@[simp] theorem State.slot_sample (s : State) (j : Fin 16) : s.sample.slot j = s.slot j := rfl
@[simp] theorem State.base_sample (s : State) : s.sample.base = s.base := rfl
@[simp] theorem State.reg_setReport (s : State) (y : Reg) (r : Option Report) : (s.setReport r).reg y = s.reg y := rfl
@[simp] theorem State.slot_setReport (s : State) (j : Fin 16) (r : Option Report) : (s.setReport r).slot j = s.slot j := rfl
@[simp] theorem State.base_setReport (s : State) (r : Option Report) : (s.setReport r).base = s.base := rfl
@[simp] theorem State.reg_setWait (s : State) (y : Reg) (w : KeyWait) : (s.setWait w).reg y = s.reg y := rfl
@[simp] theorem State.slot_setWait (s : State) (j : Fin 16) (w : KeyWait) : (s.setWait w).slot j = s.slot j := rfl
@[simp] theorem State.base_setWait (s : State) (w : KeyWait) : (s.setWait w).base = s.base := rfl
@[simp] theorem State.reg_push (s : State) (y : Reg) (w : Word) : (s.push w).reg y = s.reg y := by simp [State.reg]

end Sys2Proof.Machine
end

