-- ==== Sys2Proof/Laws/Draw.lean ====
section
/-! SUPPORT. What the sprite plot does to each pixel and to the collision bit (44_display.md R172), from the loop that
defines it. -/

namespace Sys2Proof.Machine

/-! ## One pixel -/

theorem pixel_setPixel (fb : FrameBuffer) (r r' : Fin 32) (c c' : Fin 64) (b : Bool) :
    pixel (setPixel fb r c b) r' c' = if r' = r ∧ c' = c then b else pixel fb r' c' := by
  simp only [pixel, setPixel, Vector.getElem_set, Fin.ext_iff]
  by_cases hr : r.val = r'.val
  · by_cases hc : c.val = c'.val
    · simp [hr, hc]
    · have : ¬ c'.val = c.val := fun h => hc h.symm
      simp [hr, hc, this]
  · have : ¬ r'.val = r.val := fun h => hr h.symm
    simp [hr, this]

/-- Framebuffers with the same pixels are equal. -/
theorem fb_eq_of_pixel_eq (fb fb' : FrameBuffer) (h : ∀ r c, pixel fb r c = pixel fb' r c) : fb = fb' := by
  apply Vector.ext
  intro r hr
  apply Vector.ext
  intro c hc
  exact h ⟨r, hr⟩ ⟨c, hc⟩

@[simp] theorem pixel_clearFrame (r : Fin 32) (c : Fin 64) : pixel clearFrame r c = false := by
  simp [pixel, clearFrame]

/-! ## The loop as one fold over the sprite's pixels -/

section
variable (cx cy : Nat) (rowAt : Nat → Byte)

/-- The pixel of the framebuffer that sprite pixel (r, c) falls on. -/
def spriteTarget (rc : Nat × Nat) : Fin 32 × Fin 64 := (wrapRow cy rc.1, wrapCol cx rc.2)

/-- The sprite's pixels in the order of the loop. -/
def spritePixels (n : Nat) : List (Nat × Nat) := (List.range n).flatMap fun r => (List.range 8).map fun c => (r, c)

theorem mem_spritePixels (n : Nat) (rc : Nat × Nat) : rc ∈ spritePixels n ↔ rc.1 < n ∧ rc.2 < 8 := by
  obtain ⟨r, c⟩ := rc
  simp [spritePixels, List.mem_flatMap, List.mem_map]

theorem plotSprite_eq_foldl (n : Nat) (fb : FrameBuffer) :
    plotSprite cx cy n rowAt fb =
      (spritePixels n).foldl (fun p rc => plotPixel cx cy rc.1 (rowAt rc.1) p rc.2) ⟨fb, false⟩ := by
  rw [spritePixels, List.foldl_flatMap, plotSprite]
  simp only [List.foldl_map]
  rfl

/-- At most 32 rows of 8 pixels never fall on one pixel twice (R172 "one draw never touches the same pixel twice"). -/
theorem spriteTarget_injective {n : Nat} (hn : n ≤ 32) {p q : Nat × Nat} (hp : p ∈ spritePixels n)
    (hq : q ∈ spritePixels n) (h : spriteTarget cx cy p = spriteTarget cx cy q) : p = q := by
  rw [mem_spritePixels] at hp hq
  simp only [spriteTarget, wrapRow, wrapCol, Prod.mk.injEq, Fin.mk.injEq] at h
  obtain ⟨h1, h2⟩ := h
  exact Prod.ext (by omega) (by omega)

theorem spritePixels_nodup (n : Nat) : (spritePixels n).Nodup := by
  rw [spritePixels, List.nodup_flatMap]
  refine ⟨fun r _ => (List.nodup_range).map fun a b h => (Prod.mk.inj h).2, ?_⟩
  refine List.Pairwise.imp ?_ (List.nodup_range (n := n))
  intro a b hab x hx hy
  simp only [List.mem_map] at hx hy
  obtain ⟨_, _, rfl⟩ := hx
  obtain ⟨_, _, h⟩ := hy
  exact hab (Prod.mk.inj h).1.symm

/-- The fold over any list of sprite pixels whose targets are distinct. -/
theorem foldl_plotPixel (L : List (Nat × Nat))
    (hL : L.Pairwise fun p q => spriteTarget cx cy p ≠ spriteTarget cx cy q) (p : Plot) :
    let res := L.foldl (fun p rc => plotPixel cx cy rc.1 (rowAt rc.1) p rc.2) p
    (∀ rc ∈ L, pixel res.fb (spriteTarget cx cy rc).1 (spriteTarget cx cy rc).2 =
      (pixel p.fb (spriteTarget cx cy rc).1 (spriteTarget cx cy rc).2 ^^ spriteBit (rowAt rc.1) rc.2)) ∧
    (∀ r c, (∀ rc ∈ L, spriteTarget cx cy rc ≠ (r, c)) → pixel res.fb r c = pixel p.fb r c) ∧
    (res.hit = true ↔ p.hit = true ∨ ∃ rc ∈ L,
      (pixel p.fb (spriteTarget cx cy rc).1 (spriteTarget cx cy rc).2 && spriteBit (rowAt rc.1) rc.2) = true) := by
  induction L generalizing p with
  | nil => simp
  | cons a L ih =>
    rw [List.pairwise_cons] at hL
    obtain ⟨h1, h2, h3⟩ := ih hL.2 (plotPixel cx cy a.1 (rowAt a.1) p a.2)
    have key : ∀ r c, pixel (plotPixel cx cy a.1 (rowAt a.1) p a.2).fb r c =
        if (r, c) = spriteTarget cx cy a then
          (pixel p.fb (spriteTarget cx cy a).1 (spriteTarget cx cy a).2 ^^ spriteBit (rowAt a.1) a.2)
        else pixel p.fb r c := by
      intro r c
      simp only [plotPixel, pixel_setPixel, spriteTarget, Prod.mk.injEq]
    have other : ∀ rc ∈ L, pixel (plotPixel cx cy a.1 (rowAt a.1) p a.2).fb (spriteTarget cx cy rc).1
        (spriteTarget cx cy rc).2 = pixel p.fb (spriteTarget cx cy rc).1 (spriteTarget cx cy rc).2 := by
      intro rc hrc
      rw [key, if_neg fun h => hL.1 rc hrc h.symm]
    refine ⟨fun rc hrc => ?_, fun r c hrc => ?_, ?_⟩
    · rcases List.mem_cons.1 hrc with rfl | hrc
      · rw [List.foldl_cons, h2 (spriteTarget cx cy rc).1 (spriteTarget cx cy rc).2 fun q hq h => hL.1 q hq h.symm,
          key, if_pos rfl]
      · rw [List.foldl_cons, h1 rc hrc, other rc hrc]
    · rw [List.foldl_cons, h2 r c fun q hq => hrc q (by simp [hq]), key, if_neg fun h => hrc a (by simp) h.symm]
    · rw [List.foldl_cons, h3]
      have hit : (plotPixel cx cy a.1 (rowAt a.1) p a.2).hit = true ↔ p.hit = true ∨
          (pixel p.fb (spriteTarget cx cy a).1 (spriteTarget cx cy a).2 && spriteBit (rowAt a.1) a.2) = true := by
        simp [plotPixel, collides, spriteTarget]
      rw [hit, or_assoc]
      refine or_congr_right ?_
      constructor
      · rintro (h | ⟨rc, hrc, h⟩)
        · exact ⟨a, by simp, h⟩
        · exact ⟨rc, by simp [hrc], by rwa [other rc hrc] at h⟩
      · rintro ⟨rc, hrc, h⟩
        rcases List.mem_cons.1 hrc with rfl | hrc
        · exact .inl h
        · exact .inr ⟨rc, hrc, by rwa [other rc hrc]⟩

end

/-! ## The whole sprite -/

theorem spritePixels_targets_distinct (cx cy : Nat) {n : Nat} (hn : n ≤ 32) :
    (spritePixels n).Pairwise fun p q => spriteTarget cx cy p ≠ spriteTarget cx cy q :=
  List.Pairwise.imp_of_mem (fun hp hq hne h => hne (spriteTarget_injective cx cy hn hp hq h)) (spritePixels_nodup n)

/-- Sprite pixel (r, c) is XORed onto the pixel it falls on. -/
theorem pixel_plotSprite_inside (cx cy n : Nat) (rowAt : Nat → Byte) (fb : FrameBuffer) (hn : n ≤ 32) {r c : Nat}
    (hr : r < n) (hc : c < 8) :
    pixel (plotSprite cx cy n rowAt fb).fb (wrapRow cy r) (wrapCol cx c) =
      (pixel fb (wrapRow cy r) (wrapCol cx c) ^^ spriteBit (rowAt r) c) := by
  rw [plotSprite_eq_foldl]
  exact (foldl_plotPixel cx cy rowAt _ (spritePixels_targets_distinct cx cy hn) ⟨fb, false⟩).1 (r, c)
    ((mem_spritePixels n (r, c)).2 ⟨hr, hc⟩)

/-- A pixel on which no sprite pixel falls keeps its value. -/
theorem pixel_plotSprite_outside (cx cy n : Nat) (rowAt : Nat → Byte) (fb : FrameBuffer) (hn : n ≤ 32) (R : Fin 32)
    (C : Fin 64) (h : ∀ r c, r < n → c < 8 → ¬ (wrapRow cy r = R ∧ wrapCol cx c = C)) :
    pixel (plotSprite cx cy n rowAt fb).fb R C = pixel fb R C := by
  rw [plotSprite_eq_foldl]
  refine (foldl_plotPixel cx cy rowAt _ (spritePixels_targets_distinct cx cy hn) ⟨fb, false⟩).2.1 R C ?_
  intro rc hrc e
  rw [mem_spritePixels] at hrc
  exact h rc.1 rc.2 hrc.1 hrc.2 (Prod.mk.inj e)

/-- The collision bit: some pixel that was 1 met a sprite bit of 1. -/
theorem plotSprite_hit (cx cy n : Nat) (rowAt : Nat → Byte) (fb : FrameBuffer) (hn : n ≤ 32) :
    (plotSprite cx cy n rowAt fb).hit = true ↔
      ∃ r c, r < n ∧ c < 8 ∧ pixel fb (wrapRow cy r) (wrapCol cx c) = true ∧ spriteBit (rowAt r) c = true := by
  rw [plotSprite_eq_foldl,
    (foldl_plotPixel cx cy rowAt _ (spritePixels_targets_distinct cx cy hn) ⟨fb, false⟩).2.2]
  simp only [Bool.false_eq_true, false_or, spriteTarget, Bool.and_eq_true, Prod.exists, mem_spritePixels]
  exact ⟨fun ⟨r, c, ⟨hr, hc⟩, h⟩ => ⟨r, c, hr, hc, h⟩, fun ⟨r, c, hr, hc, h⟩ => ⟨r, c, ⟨hr, hc⟩, h⟩⟩

end Sys2Proof.Machine
end

