-- ==== Sys2Proof/Laws/Encoding.lean ====
section
/-! SUPPORT. The fields of a word and the formats of the encoder, as numbers, and that each is the other's inverse
(30_encoding.md R71, R72). -/

namespace Sys2Proof

/-! ## As numbers -/

theorem shiftLeft_or_eq_add (a b k : Nat) (h : b < 2 ^ k) : a <<< k ||| b = a * 2 ^ k + b := by
  rw [Nat.shiftLeft_eq, Nat.mul_comm, ← Nat.two_pow_add_eq_or_of_lt h]

theorem regField_toNat (x : Reg) : (regField x).toNat = x.val := rfl

theorem encNNN_toNat (op : BitVec 4) (nnn : BitVec 12) : (encNNN op nnn).toNat = op.toNat * 4096 + nnn.toNat := by
  rw [encNNN, BitVec.toNat_append, shiftLeft_or_eq_add _ _ _ nnn.isLt]
  norm_num

theorem encXKK_toNat (op : BitVec 4) (x : Reg) (kk : Byte) :
    (encXKK op x kk).toNat = op.toNat * 4096 + x.val * 256 + kk.toNat := by
  rw [encXKK, BitVec.toNat_append, BitVec.toNat_append, shiftLeft_or_eq_add _ _ _ kk.isLt,
    shiftLeft_or_eq_add _ _ _ (regField x).isLt, regField_toNat]
  omega

theorem encXYN_toNat (op : BitVec 4) (x y : Reg) (n : BitVec 4) :
    (encXYN op x y n).toNat = op.toNat * 4096 + x.val * 256 + y.val * 16 + n.toNat := by
  rw [encXYN, BitVec.toNat_append, BitVec.toNat_append, BitVec.toNat_append, shiftLeft_or_eq_add _ _ _ n.isLt,
    shiftLeft_or_eq_add _ _ _ (regField y).isLt, shiftLeft_or_eq_add _ _ _ (regField x).isLt, regField_toNat,
    regField_toNat]
  omega

theorem joinBytes_toNat (hi lo : Byte) : (joinBytes hi lo).toNat = hi.toNat * 256 + lo.toNat := by
  rw [joinBytes, BitVec.toNat_append, shiftLeft_or_eq_add _ _ _ lo.isLt]
  norm_num

theorem opField_toNat (w : Word) : (opField w).toNat = w.toNat / 4096 := by
  have := w.isLt
  simp only [opField, BitVec.extractLsb'_toNat, Nat.shiftRight_eq_div_pow]
  omega

theorem xField_val (w : Word) : (xField w).val = w.toNat / 256 % 16 := by
  simp only [xField, BitVec.extractLsb'_toNat, Nat.shiftRight_eq_div_pow]

theorem yField_val (w : Word) : (yField w).val = w.toNat / 16 % 16 := by
  simp only [yField, BitVec.extractLsb'_toNat, Nat.shiftRight_eq_div_pow]

theorem nField_toNat (w : Word) : (nField w).toNat = w.toNat % 16 := by
  simp only [nField, BitVec.extractLsb'_toNat, Nat.shiftRight_eq_div_pow]
  omega

theorem nnnField_toNat (w : Word) : (nnnField w).toNat = w.toNat % 4096 := by
  simp only [nnnField, BitVec.extractLsb'_toNat, Nat.shiftRight_eq_div_pow]
  omega

theorem kkField_toNat (w : Word) : (kkField w).toNat = w.toNat % 256 := by
  simp only [kkField, BitVec.extractLsb'_toNat, Nat.shiftRight_eq_div_pow]
  omega

theorem highByte_toNat (w : Word) : (highByte w).toNat = w.toNat / 256 := by
  have := w.isLt
  simp only [highByte, BitVec.extractLsb'_toNat, Nat.shiftRight_eq_div_pow]
  omega

theorem lowByte_toNat (w : Word) : (lowByte w).toNat = w.toNat % 256 := by
  simp only [lowByte, BitVec.extractLsb'_toNat, Nat.shiftRight_eq_div_pow]
  omega

/-! ## The fields of an encoding -/

section
variable (op : BitVec 4) (x y : Reg) (n : BitVec 4) (nnn : BitVec 12) (kk : Byte)

@[simp] theorem opField_encNNN : opField (encNNN op nnn) = op := by
  apply BitVec.eq_of_toNat_eq
  have := nnn.isLt
  rw [opField_toNat, encNNN_toNat]
  omega

@[simp] theorem nnnField_encNNN : nnnField (encNNN op nnn) = nnn := by
  apply BitVec.eq_of_toNat_eq
  have := nnn.isLt
  rw [nnnField_toNat, encNNN_toNat]
  omega

@[simp] theorem opField_encXKK : opField (encXKK op x kk) = op := by
  apply BitVec.eq_of_toNat_eq
  have := kk.isLt
  have := x.isLt
  rw [opField_toNat, encXKK_toNat]
  omega

@[simp] theorem xField_encXKK : xField (encXKK op x kk) = x := by
  apply Fin.ext
  have := kk.isLt
  have := x.isLt
  rw [xField_val, encXKK_toNat]
  omega

@[simp] theorem kkField_encXKK : kkField (encXKK op x kk) = kk := by
  apply BitVec.eq_of_toNat_eq
  have := kk.isLt
  rw [kkField_toNat, encXKK_toNat]
  omega

@[simp] theorem opField_encXYN : opField (encXYN op x y n) = op := by
  apply BitVec.eq_of_toNat_eq
  have := n.isLt
  have := x.isLt
  have := y.isLt
  rw [opField_toNat, encXYN_toNat]
  omega

@[simp] theorem xField_encXYN : xField (encXYN op x y n) = x := by
  apply Fin.ext
  have := n.isLt
  have := x.isLt
  have := y.isLt
  rw [xField_val, encXYN_toNat]
  omega

@[simp] theorem yField_encXYN : yField (encXYN op x y n) = y := by
  apply Fin.ext
  have := n.isLt
  have := y.isLt
  rw [yField_val, encXYN_toNat]
  omega

@[simp] theorem nField_encXYN : nField (encXYN op x y n) = n := by
  apply BitVec.eq_of_toNat_eq
  have := n.isLt
  rw [nField_toNat, encXYN_toNat]
  omega

end

/-! ## A word from its fields -/

theorem encNNN_fields (w : Word) : encNNN (opField w) (nnnField w) = w := by
  apply BitVec.eq_of_toNat_eq
  rw [encNNN_toNat, opField_toNat, nnnField_toNat]
  omega

theorem encXKK_fields (w : Word) : encXKK (opField w) (xField w) (kkField w) = w := by
  apply BitVec.eq_of_toNat_eq
  rw [encXKK_toNat, opField_toNat, xField_val, kkField_toNat]
  omega

theorem encXYN_fields (w : Word) : encXYN (opField w) (xField w) (yField w) (nField w) = w := by
  apply BitVec.eq_of_toNat_eq
  rw [encXYN_toNat, opField_toNat, xField_val, yField_val, nField_toNat]
  omega

/-- The last dispatch: a nibble that is none of 0x0 to 0xE is 0xF. -/
theorem nibble_eq_F {o : BitVec 4} (h0 : ¬ o = 0x0#4) (h1 : ¬ o = 0x1#4) (h2 : ¬ o = 0x2#4) (h3 : ¬ o = 0x3#4)
    (h4 : ¬ o = 0x4#4) (h5 : ¬ o = 0x5#4) (h6 : ¬ o = 0x6#4) (h7 : ¬ o = 0x7#4) (h8 : ¬ o = 0x8#4) (h9 : ¬ o =
    0x9#4) (hA : ¬ o = 0xA#4) (hB : ¬ o = 0xB#4) (hC : ¬ o = 0xC#4) (hD : ¬ o = 0xD#4) (hE : ¬ o = 0xE#4) : o =
    0xF#4 := by
  bv_omega

/-! ## A word masked as the rows of the opcode map mask it (30_encoding.md R74) -/

theorem encXYN_and (o p : BitVec 4) (x a y b : Reg) (n m : BitVec 4) : encXYN o x y n &&& encXYN p a b m =
    (o &&& p) ++ (regField x &&& regField a) ++ (regField y &&& regField b) ++ (n &&& m) := by
  unfold encXYN
  erw [BitVec.and_append, BitVec.and_append, BitVec.and_append]

theorem nibble_and_F (x : BitVec 4) : x &&& 15#4 = x := by
  revert x
  decide

theorem and_encXYN (w : Word) (p : BitVec 4) (a b : Reg) (m : BitVec 4) : w &&& encXYN p a b m =
    (opField w &&& p) ++ (regField (xField w) &&& regField a) ++ (regField (yField w) &&& regField b) ++
      (nField w &&& m) := by
  rw [← encXYN_and, encXYN_fields]

theorem and_F00F (w : Word) : w &&& 0xF00F#16 = encXYN (opField w) 0 0 (nField w) := by
  have h := and_encXYN w 15#4 0 0 15#4
  rw [nibble_and_F, nibble_and_F] at h
  simpa [regField, encXYN] using h

theorem and_F000 (w : Word) : w &&& 0xF000#16 = encNNN (opField w) 0#12 := by
  have h := and_encXYN w 15#4 0 0 0#4
  rw [nibble_and_F] at h
  have e : encNNN (opField w) 0#12 = encXYN (opField w) 0 0 0#4 := by
    apply BitVec.eq_of_toNat_eq
    rw [encNNN_toNat, encXYN_toNat]
    simp
  rw [e]
  simpa [regField, encXYN] using h

theorem and_F0FF (w : Word) : w &&& 0xF0FF#16 = encXKK (opField w) 0 (kkField w) := by
  have h := and_encXYN w 15#4 0 15 15#4
  rw [nibble_and_F, nibble_and_F, show regField (yField w) &&& regField 15 = regField (yField w) from nibble_and_F _] at h
  apply BitVec.eq_of_toNat_eq
  rw [encXKK_toNat, show 0xF0FF#16 = encXYN 15#4 0 15 15#4 by decide, h, BitVec.toNat_append,
    shiftLeft_or_eq_add _ _ _ (nField w).isLt, BitVec.toNat_append,
    shiftLeft_or_eq_add _ _ _ (regField (yField w)).isLt, BitVec.toNat_append,
    shiftLeft_or_eq_add _ _ _ (regField (xField w) &&& regField 0).isLt, regField_toNat, yField_val, nField_toNat,
    kkField_toNat]
  simp [regField]
  omega

/-! ## Words and bytes -/

@[simp] theorem joinBytes_high_low (w : Word) : joinBytes (highByte w) (lowByte w) = w := by
  apply BitVec.eq_of_toNat_eq
  rw [joinBytes_toNat, highByte_toNat, lowByte_toNat]
  omega

@[simp] theorem highByte_joinBytes (hi lo : Byte) : highByte (joinBytes hi lo) = hi := by
  apply BitVec.eq_of_toNat_eq
  have := lo.isLt
  rw [highByte_toNat, joinBytes_toNat]
  omega

@[simp] theorem lowByte_joinBytes (hi lo : Byte) : lowByte (joinBytes hi lo) = lo := by
  apply BitVec.eq_of_toNat_eq
  have := lo.isLt
  rw [lowByte_toNat, joinBytes_toNat]
  omega

/-- The decoder on two bytes is the decoder on their word. -/
theorem decodeTableWord_eq (nbits : Nat) (w : Word) :
    decodeTableWord nbits w.toNat = match decode w with
      | .instr i => some i
      | .unsupported _ => none := by
  simp only [decodeTableWord, decodeBytes, BitVec.ofNat_toNat, BitVec.setWidth_eq, joinBytes_high_low]
  cases decode w <;> rfl

/-! ## The word an unsupported decoding names is the word decoded -/

/-- Both branches of a choice name the word. -/
theorem ite_unsupported {c : Prop} [Decidable c] {a b : Decoded} {w u : Word} (ha : a = .unsupported u → u = w)
    (hb : b = .unsupported u → u = w) : (if c then a else b) = .unsupported u → u = w := by
  split
  · exact ha
  · exact hb

theorem decode8_unsupported {w u : Word} : decode8 w = .unsupported u → u = w := by
  unfold decode8
  repeat' apply ite_unsupported
  all_goals simp [eq_comm]

theorem decodeE_unsupported {w u : Word} : decodeE w = .unsupported u → u = w := by
  unfold decodeE
  repeat' apply ite_unsupported
  all_goals simp [eq_comm]

theorem decodeF_unsupported {w u : Word} : decodeF w = .unsupported u → u = w := by
  unfold decodeF
  repeat' apply ite_unsupported
  all_goals simp [eq_comm]

theorem decode_unsupported {w u : Word} : decode w = .unsupported u → u = w := by
  unfold decode
  repeat' apply ite_unsupported
  all_goals first | exact decode8_unsupported | exact decodeE_unsupported | exact decodeF_unsupported | simp [eq_comm]

end Sys2Proof
end

