-- ==== Sys2Proof/Laws/Memory.lean ====
section
/-! SUPPORT. Memory: reading after writing, the canonical form is kept, and equal reads mean equal memories. -/

namespace Sys2Proof.Machine

/-! ## Cells -/

theorem readCells_insertCell (cs : List Host.Cell) (a b : Nat) (v : Byte) :
    readCells (insertCell cs a v) b = if b = a then v else readCells cs b := by
  induction cs with
  | nil => simp [insertCell, readCells]
  | cons c rest ih =>
    obtain ⟨d, w⟩ := c
    simp only [insertCell]
    split_ifs with h1 h2 <;> simp only [readCells, ih] <;> split_ifs <;> simp_all

/-- In rising cells, an address below every listed one is unlisted. -/
theorem readCells_below (cs : List Host.Cell) (a : Nat) (h : ∀ c ∈ cs, a < c.1) : readCells cs a = resetByte a := by
  induction cs with
  | nil => rfl
  | cons c rest ih =>
    have h1 := h c (by simp)
    simp only [readCells]
    rw [if_neg (by omega), ih fun d hd => h d (by simp [hd])]

theorem readCells_eraseCell (cs : List Host.Cell) (a b : Nat) (h : cs.Pairwise fun c d => c.1 < d.1) :
    readCells (eraseCell cs a) b = if b = a then resetByte a else readCells cs b := by
  induction cs with
  | nil => simp only [eraseCell, readCells]; split_ifs <;> simp_all
  | cons c rest ih =>
    obtain ⟨d, w⟩ := c
    rw [List.pairwise_cons] at h
    simp only [eraseCell]
    split_ifs with h1 h2 h2
    · subst h1 h2; exact readCells_below rest b h.1
    · subst h1; simp [readCells, h2]
    · subst h2; simp only [readCells, if_neg h1, ih h.2, if_true]
    · simp only [readCells, ih h.2, if_neg h2]

theorem mem_insertCell (cs : List Host.Cell) (a : Nat) (v : Byte) (c : Host.Cell) (h : c ∈ insertCell cs a v) :
    c = (a, v) ∨ c ∈ cs := by
  induction cs with
  | nil => simpa [insertCell] using h
  | cons d rest ih =>
    simp only [insertCell] at h
    split_ifs at h <;> simp only [List.mem_cons] at h ⊢ <;> tauto

theorem mem_eraseCell (cs : List Host.Cell) (a : Nat) (c : Host.Cell) (h : c ∈ eraseCell cs a) : c ∈ cs := by
  induction cs with
  | nil => simp [eraseCell] at h
  | cons d rest ih =>
    simp only [eraseCell] at h
    split_ifs at h <;> simp only [List.mem_cons] at h ⊢ <;> tauto

theorem insertCell_rising (cs : List Host.Cell) (a : Nat) (v : Byte) (h : cs.Pairwise fun c d => c.1 < d.1) :
    (insertCell cs a v).Pairwise fun c d => c.1 < d.1 := by
  induction cs with
  | nil => simp [insertCell]
  | cons c rest ih =>
    obtain ⟨d, w⟩ := c
    rw [List.pairwise_cons] at h
    simp only [insertCell]
    split_ifs with h1 h2
    · exact List.pairwise_cons.2 ⟨fun e he => by
        rcases List.mem_cons.1 he with rfl | he'
        · exact h1
        · exact lt_trans h1 (h.1 e he'), List.pairwise_cons.2 h⟩
    · subst h2; exact List.pairwise_cons.2 h
    · refine List.pairwise_cons.2 ⟨fun e he => ?_, ih h.2⟩
      rcases mem_insertCell rest a v e he with rfl | he'
      · show d < a; omega
      · exact h.1 e he'

theorem eraseCell_rising (cs : List Host.Cell) (a : Nat) (h : cs.Pairwise fun c d => c.1 < d.1) :
    (eraseCell cs a).Pairwise fun c d => c.1 < d.1 := by
  induction cs with
  | nil => simp [eraseCell]
  | cons c rest ih =>
    rw [List.pairwise_cons] at h
    simp only [eraseCell]
    split_ifs
    · exact h.2
    · exact List.pairwise_cons.2 ⟨fun e he => h.1 e (mem_eraseCell rest a e he), ih h.2⟩

/-! ## One byte -/

/-- Everything a write can do to a read (20_memory.md R53, R61). -/
theorem Memory.read_write_cases (m : Memory) (hm : m.wf) (a b : Nat) (v : Byte) (ha : a < Config.memSize) :
    (m.write a v).read b = if b = a then v else m.read b := by
  simp only [Memory.write, Memory.read, if_neg (Nat.not_le.2 ha)]
  split_ifs with h1 h2 h2
  · subst h2; simp [readCells_eraseCell m.cells b b hm.1, h1]
  · simp [readCells_eraseCell m.cells a b hm.1, h2]
  · simp [readCells_insertCell, h2]
  · simp [readCells_insertCell, h2]

/-- Every write keeps the canonical form. -/
theorem Memory.write_wf (m : Memory) (hm : m.wf) (a : Nat) (v : Byte) : (m.write a v).wf := by
  unfold Memory.write
  split_ifs with h1 h2
  · exact hm
  · exact ⟨eraseCell_rising m.cells a hm.1, fun c hc => hm.2 c (mem_eraseCell m.cells a c hc)⟩
  · refine ⟨insertCell_rising m.cells a v hm.1, fun c hc => ?_⟩
    rcases mem_insertCell m.cells a v c hc with rfl | h
    · exact ⟨Nat.not_le.1 h1, h2⟩
    · exact hm.2 c h

/-! ## Several bytes -/

/-- Every block write keeps the canonical form. -/
theorem Memory.writeBytes_wf (m : Memory) (hm : m.wf) (a : Nat) (bs : List Byte) : (m.writeBytes a bs).wf := by
  induction bs generalizing m a with
  | nil => exact hm
  | cons b rest ih => exact ih (m.write a b) (m.write_wf hm a b) (a + 1)

/-- Everything a block write inside memory can do to a read. -/
theorem Memory.read_writeBytes_cases (m : Memory) (hm : m.wf) (a : Nat) (bs : List Byte) (b : Nat)
    (ha : a + bs.length ≤ Config.memSize) :
    (m.writeBytes a bs).read b = if a ≤ b then bs.getD (b - a) (m.read b) else m.read b := by
  induction bs generalizing m a with
  | nil => simp [Memory.writeBytes]
  | cons v rest ih =>
    have hlen : a + (rest.length + 1) ≤ Config.memSize := by simpa using ha
    rw [Memory.writeBytes, ih (m.write a v) (m.write_wf hm a v) (a + 1) (by omega),
      m.read_write_cases hm a b v (by omega)]
    rcases Nat.lt_trichotomy b a with h | h | h
    · rw [if_neg (by omega), if_neg (by omega), if_neg (by omega)]
    · subst h; simp
    · have e : b - a = (b - (a + 1)) + 1 := by omega
      rw [if_pos (by omega), if_neg (by omega), if_pos (by omega), e, List.getD_cons_succ]

/-- A byte outside the block reads as before. -/
theorem Memory.read_writeBytes_outside (m : Memory) (hm : m.wf) (a : Nat) (bs : List Byte) (b : Nat)
    (ha : a + bs.length ≤ Config.memSize) (hb : b < a ∨ a + bs.length ≤ b) :
    (m.writeBytes a bs).read b = m.read b := by
  rw [m.read_writeBytes_cases hm a bs b ha]
  split_ifs with h
  · exact List.getD_eq_default _ _ (by omega)
  · rfl

/-- Byte `k` of the block reads as written. -/
theorem Memory.read_writeBytes_inside (m : Memory) (hm : m.wf) (a : Nat) (bs : List Byte) (k : Nat)
    (ha : a + bs.length ≤ Config.memSize) (hk : k < bs.length) :
    (m.writeBytes a bs).read (a + k) = bs[k] := by
  rw [m.read_writeBytes_cases hm a bs (a + k) ha, if_pos (by omega), Nat.add_sub_cancel_left,
    List.getD_eq_getElem _ _ hk]

/-! ## Canonical form -/

/-- Memory of a block right after Load is canonical. -/
theorem loadMemory_wf (font : Config.Font) (rom : List Byte) : (loadMemory font rom).wf :=
  Memory.writeBytes_wf _ (Memory.writeBytes_wf _ (by decide) _ _) _ _

/-- Rising cells with no entry equal to the reset contents are fixed by what they read as. -/
theorem cells_eq_of_read_eq (cs ds : List Host.Cell)
    (hc : cs.Pairwise fun c d => c.1 < d.1) (hd : ds.Pairwise fun c d => c.1 < d.1)
    (nc : ∀ c ∈ cs, c.2 ≠ resetByte c.1) (nd : ∀ c ∈ ds, c.2 ≠ resetByte c.1)
    (h : ∀ a, readCells cs a = readCells ds a) : cs = ds := by
  induction cs generalizing ds with
  | nil =>
    cases ds with
    | nil => rfl
    | cons d rest => exact absurd (by simpa [readCells] using (h d.1).symm) (nd d (by simp))
  | cons c cs ih =>
    rw [List.pairwise_cons] at hc
    cases ds with
    | nil => exact absurd (by simpa [readCells] using h c.1) (nc c (by simp))
    | cons d ds =>
      rw [List.pairwise_cons] at hd
      have hcc := h c.1
      have hdd := h d.1
      simp only [readCells, if_true] at hcc hdd
      have e : c.1 = d.1 := by
        rcases Nat.lt_trichotomy c.1 d.1 with l | l | l
        · rw [if_neg (by omega), readCells_below ds c.1 fun x hx => lt_trans l (hd.1 x hx)] at hcc
          exact absurd hcc (nc c (by simp))
        · exact l
        · rw [if_neg (by omega), readCells_below cs d.1 fun x hx => lt_trans l (hc.1 x hx)] at hdd
          exact absurd hdd.symm (nd d (by simp))
      rw [if_pos e] at hcc
      have hcd : c = d := Prod.ext e hcc
      subst hcd
      congr 1
      refine ih ds hc.2 hd.2 (fun x hx => nc x (by simp [hx])) (fun x hx => nd x (by simp [hx])) fun a => ?_
      have ha := h a
      simp only [readCells] at ha
      split_ifs at ha with l
      · subst l; rw [readCells_below cs _ hc.1, readCells_below ds _ hd.1]
      · exact ha

/-- Canonical memories that read alike are equal. -/
theorem Memory.eq_of_read_eq (m n : Memory) (hm : m.wf) (hn : n.wf) (h : ∀ a, m.read a = n.read a) : m = n := by
  obtain ⟨cs⟩ := m
  obtain ⟨ds⟩ := n
  exact congrArg _ (cells_eq_of_read_eq cs ds hm.1 hn.1 (fun c hc => (hm.2 c hc).2) (fun c hc => (hn.2 c hc).2) h)

end Sys2Proof.Machine
end

