-- ==== Sys2Proof/Laws/Ops.lean ====
section
/-! SUPPORT. One lemma per shared operation, saying once what it can do. -/

namespace Sys2Proof.Machine

/-! ## Fatal errors -/

theorem guardFatal_bad {bad : Prop} [Decidable bad] (k : FatalKind) (i : Instr) (s e : State) (h : bad) :
    guardFatal bad k i s e = .next (s.raise k i) := if_pos h

theorem guardFatal_good {bad : Prop} [Decidable bad] (k : FatalKind) (i : Instr) (s e : State) (h : ¬ bad) :
    guardFatal bad k i s e = .next e := if_neg h

/-- The two things a guarded effect can do; it always gives a next state. -/
theorem guardFatal_cases {bad : Prop} [Decidable bad] {k : FatalKind} {i : Instr} {s e t : State}
    (h : guardFatal bad k i s e = .next t) : (bad ∧ t = s.raise k i) ∨ (¬ bad ∧ t = e) := by
  unfold guardFatal at h
  split_ifs at h with hb
  · exact .inl ⟨hb, (Host.Outcome.next.inj h).symm⟩
  · exact .inr ⟨hb, (Host.Outcome.next.inj h).symm⟩

/-- Taking a fatal error changes the status alone (60_exceptions.md R204). -/
theorem raise_halts (s : State) (k : FatalKind) (i : Instr) : Halts k i s (s.raise k i) :=
  ⟨⟨fun _ _ => rfl, fun p hp => by cases p <;> simp_all [Part.Kept]⟩, rfl⟩

/-! ## Ranges and operands -/

theorem outOfRange_iff (b len : Nat) : outOfRange b len ↔ 0 < len ∧ 4096 ≤ b + len - 1 := Iff.rfl

theorem stackFull_iff (s : State) : s.stackFull ↔ s.sp.val = 16 := Iff.rfl

/-- The range check in the words of 20_memory.md R58: the last address is below 4096. -/
theorem not_outOfRange_iff (b len : Nat) : ¬ outOfRange b len ↔ len = 0 ∨ b + len ≤ Config.memSize := by
  simp only [outOfRange, Config.memSize]
  omega

@[simp] theorem addrOperand_toNat (nnn : BitVec 12) : (addrOperand nnn).toNat = nnn.toNat := by
  have := nnn.isLt
  simp only [addrOperand, BitVec.toNat_setWidth]
  omega

theorem glyphAddr_toNat (d : Byte) : (glyphAddr d).toNat = d.toNat * 5 := by
  have := d.isLt
  simp only [glyphAddr, Config.fontBase, Config.glyphBytes, BitVec.toNat_ofNat]
  omega

@[simp] theorem regsUpTo_length (s : State) (x : Reg) : (s.regsUpTo x).length = regCount x := by
  have := x.isLt
  simp only [State.regsUpTo, List.length_take, Vector.length_toList, regCount]
  omega

theorem regsUpTo_getElem (s : State) (x : Reg) (k : Reg) (h : k.val < (s.regsUpTo x).length) :
    (s.regsUpTo x)[k.val] = s.reg k := by
  simp [State.regsUpTo, State.reg]

@[simp] theorem bcdDigits_length (v : Byte) : (bcdDigits v).length = 3 := rfl

/-- The digits give the value back, each is a decimal digit (43_index_memory.md R153). -/
theorem bcdDigits_toNat (v : Byte) :
    (bcdDigits v).map BitVec.toNat = [v.toNat / 100, v.toNat / 10 % 10, v.toNat % 10] := by
  have := v.isLt
  simp only [bcdDigits, List.map_cons, List.map_nil, BitVec.toNat_ofNat, List.cons.injEq, and_true]
  omega

/-! ## Flags -/

@[simp] theorem flagByte_toNat (b : Bool) : (flagByte b).toNat = if b then 1 else 0 := by cases b <;> rfl

theorem carryFlag_toNat (p q : Byte) : (carryFlag p q).toNat = if 255 < p.toNat + q.toNat then 1 else 0 := by
  simp [carryFlag]

theorem noBorrowFlag_toNat (p q : Byte) : (noBorrowFlag p q).toNat = if q.toNat ≤ p.toNat then 1 else 0 := by
  simp [noBorrowFlag]

theorem shiftedOutRight_toNat (v : Byte) : (shiftedOutRight v).toNat = v.toNat % 2 := by
  simp [shiftedOutRight, Nat.and_one_is_mod]

theorem shiftedOutLeft_toNat (v : Byte) : (shiftedOutLeft v).toNat = v.toNat / 128 := by
  have := v.isLt
  simp only [shiftedOutLeft, BitVec.toNat_and, BitVec.toNat_ushiftRight, BitVec.toNat_ofNat,
    Nat.shiftRight_eq_div_pow]
  rw [Nat.mod_eq_of_lt (by omega : 1 < 2 ^ 8), Nat.and_one_is_mod]
  omega

/-! ## Timers -/

/-- A decrement clamped at 0 (40_step_cycle.md R92). -/
theorem tick_toNat (t : Byte) : (tick t).toNat = t.toNat - 1 := by
  have := t.isLt
  unfold tick
  split_ifs with h
  · subst h; rfl
  · have h' : t.toNat ≠ 0 := fun e => h (BitVec.eq_of_toNat_eq e)
    rw [BitVec.toNat_sub]
    simp only [BitVec.toNat_ofNat]
    omega

/-! ## Keys -/

theorem lowestKey_none_iff (keys : Word) : lowestKey keys = none ↔ keys = 0#16 := by
  simp only [lowestKey, List.find?_eq_none, List.mem_finRange, true_implies]
  constructor
  · intro h
    apply BitVec.eq_of_getLsbD_eq
    intro i hi
    have := h ⟨i, hi⟩
    simpa using this
  · rintro rfl k
    simp

/-- The key found is pressed and no lower one is (40_step_cycle.md R93). -/
theorem lowestKey_some_iff (keys : Word) (k : Fin 16) :
    lowestKey keys = some k ↔ keys.getLsbD k.val = true ∧ ∀ j : Fin 16, j < k → keys.getLsbD j.val = false := by
  have key : ∀ (L : List (Fin 16)), L.Pairwise (· < ·) → ∀ k, L.find? (fun j => keys.getLsbD j.val) = some k ↔
      k ∈ L ∧ keys.getLsbD k.val = true ∧ ∀ j ∈ L, j < k → keys.getLsbD j.val = false := by
    intro L
    induction L with
    | nil => simp
    | cons a L ih =>
      intro hL k
      rw [List.pairwise_cons] at hL
      by_cases ha : keys.getLsbD a.val = true
      · rw [List.find?_cons_of_pos (by simpa using ha)]
        constructor
        · intro h
          obtain rfl := Option.some.inj h
          refine ⟨by simp, ha, fun j hj hlt => ?_⟩
          rcases List.mem_cons.1 hj with rfl | hj
          · exact absurd hlt (lt_irrefl _)
          · exact absurd hlt (not_lt.2 (hL.1 j hj).le)
        · rintro ⟨hk, _, hlow⟩
          rcases List.mem_cons.1 hk with rfl | hk
          · rfl
          · rw [hlow a (by simp) (hL.1 k hk)] at ha
            exact absurd ha (by simp)
      · rw [List.find?_cons_of_neg (by simpa using ha), ih hL.2]
        constructor
        · rintro ⟨hk, h1, h2⟩
          refine ⟨by simp [hk], h1, fun j hj hlt => ?_⟩
          rcases List.mem_cons.1 hj with rfl | hj
          · simpa using ha
          · exact h2 j hj hlt
        · rintro ⟨hk, h1, h2⟩
          rcases List.mem_cons.1 hk with rfl | hk
          · exact absurd h1 ha
          · exact ⟨hk, h1, fun j hj => h2 j (by simp [hj])⟩
  rw [lowestKey, key _ (List.pairwise_lt_finRange 16)]
  simp

/-! ## The sprite plot on the state -/

theorem drawSprite_fb (s : State) (cx cy : Byte) (n : Nat) : (s.drawSprite cx cy n).fb =
    (plotSprite cx.toNat cy.toNat n (fun r => s.mem.read (s.base + r)) s.fb).fb := rfl

theorem drawSprite_reg (s : State) (cx cy : Byte) (n : Nat) (y : Reg) : (s.drawSprite cx cy n).reg y =
    if y = Reg.vf then
      flagByte (plotSprite cx.toNat cy.toNat n (fun r => s.mem.read (s.base + r)) s.fb).hit
    else s.reg y := by
  simp only [State.drawSprite, State.setFlag_eq, State.reg_setReg]
  rfl

/-- The plot changes the framebuffer and VF alone. -/
theorem drawSprite_frame (s : State) (cx cy : Byte) (n : Nat) :
    Frame [Reg.vf] [.display] s (s.drawSprite cx cy n) := by
  refine ⟨fun r hr => ?_, fun p hp => ?_⟩
  · rw [drawSprite_reg, if_neg (by simpa using hr)]
  · cases p <;> first | rfl | exact ⟨rfl, fun _ => rfl⟩ | exact ⟨rfl, rfl, rfl⟩ | exact fun _ => rfl | simp at hp

theorem drawSprite_status (s : State) (cx cy : Byte) (n : Nat) : (s.drawSprite cx cy n).status = s.status := rfl

end Sys2Proof.Machine
end

