-- ==== Sys2Proof/Laws/Step.lean ====
section
/-! SUPPORT. What the phases before an instruction can come to, and what a step can do: one inversion lemma each. -/

namespace Sys2Proof.Machine

theorem State.canFetch_iff (s : State) : s.canFetch ↔ s.pc.toNat + 1 < 4096 := Iff.rfl

@[simp] theorem State.fetchWord_begin (s : State) : s.begin.fetchWord = s.fetchWord := rfl

theorem prepare_of_halted {s : State} {e : ErrorRecord} (h : s.status = .halted e) : s.prepare = .noStep := by
  simp [State.prepare, h]

theorem prepare_of_waiting {s : State} {t : Reg} (h : s.status = .active) (hw : s.wait = .waiting t) :
    s.prepare = .done (s.begin.resolveWait t) := by
  simp [State.prepare, h, hw]

theorem prepare_of_noFetch {s : State} (h : s.status = .active) (hw : s.wait = .running) (hf : ¬ s.canFetch) :
    s.prepare = .done s.begin.raiseFetch := by
  simp only [State.prepare, h, hw, State.fetchDecode]
  rw [if_neg (show ¬ s.begin.canFetch from hf)]

theorem prepare_of_runsUnsupported {s : State} {w : Word} (h : s.runsUnsupported w) :
    s.prepare = .done (s.begin.advance.setReport (some ⟨w, s.pc⟩)) := by
  obtain ⟨⟨h, hw, hf⟩, hd⟩ := h
  simp only [State.prepare, h, hw, State.fetchDecode]
  rw [if_pos (show s.begin.canFetch from hf), State.fetchWord_begin, hd]
  rfl

theorem prepare_of_runs {s : State} {i : Instr} (h : s.runs i) : s.prepare = .execute i s.begin.advance := by
  obtain ⟨⟨h, hw, hf⟩, hd⟩ := h
  simp only [State.prepare, h, hw, State.fetchDecode]
  rw [if_pos (show s.begin.canFetch from hf), State.fetchWord_begin, hd]

/-- The five things a state can be about to do (40_step_cycle.md R91 to R96). -/
theorem state_cases (s : State) :
    (∃ e, s.status = .halted e) ∨
    (s.status = .active ∧ ∃ t, s.wait = .waiting t) ∨
    (s.status = .active ∧ s.wait = .running ∧ ¬ s.canFetch) ∨
    (∃ w, s.runsUnsupported w) ∨
    ∃ i, s.runs i := by
  cases h : s.status with
  | halted e => exact .inl ⟨e, rfl⟩
  | active =>
    cases hw : s.wait with
    | waiting t => exact .inr (.inl ⟨rfl, t, rfl⟩)
    | running =>
      by_cases hf : s.canFetch
      · cases hd : decode s.fetchWord with
        | unsupported w => exact .inr (.inr (.inr (.inl ⟨w, ⟨h, hw, hf⟩, hd⟩)))
        | instr i => exact .inr (.inr (.inr (.inr ⟨i, ⟨h, hw, hf⟩, hd⟩)))
      · exact .inr (.inr (.inl ⟨rfl, rfl, hf⟩))

/-! ## The step in each of the cases -/

theorem step_of_halted {s : State} {e : ErrorRecord} (h : s.status = .halted e) : step s = .fault .halted := by
  simp only [step, prepare_of_halted h]

theorem step_of_waiting {s : State} {r : Reg} (h : s.status = .active) (hw : s.wait = .waiting r) :
    step s = .next (s.begin.resolveWait r) := by
  simp only [step, prepare_of_waiting h hw]

theorem step_of_noFetch {s : State} (h : s.status = .active) (hw : s.wait = .running) (hf : ¬ s.canFetch) :
    step s = .next s.begin.raiseFetch := by
  simp only [step, prepare_of_noFetch h hw hf]

theorem step_of_runs {s : State} {i : Instr} (h : s.runs i) : step s = exec i s.begin.advance := by
  simp only [step, prepare_of_runs h]

theorem step_of_runsUnsupported {s : State} {w : Word} (h : s.runsUnsupported w) :
    step s = .next (s.begin.advance.setReport (some ⟨w, s.pc⟩)) := by
  simp only [step, prepare_of_runsUnsupported h]

/-- What a step that answers a next state has done. -/
theorem step_cases {s t : State} (h : step s = .next t) :
    (s.status = .active ∧ ∃ r, s.wait = .waiting r ∧ t = s.begin.resolveWait r) ∨
    (s.status = .active ∧ s.wait = .running ∧ ¬ s.canFetch ∧ t = s.begin.raiseFetch) ∨
    (∃ w, s.runsUnsupported w ∧ t = s.begin.advance.setReport (some ⟨w, s.pc⟩)) ∨
    ∃ i, s.runs i ∧ exec i s.begin.advance = .next t := by
  rcases state_cases s with ⟨e, he⟩ | ⟨ha, r, hr⟩ | ⟨ha, hr, hf⟩ | ⟨w, hw⟩ | ⟨i, hi⟩
  · simp only [step, prepare_of_halted he, reduceCtorEq] at h
  · simp only [step, prepare_of_waiting ha hr, Host.Outcome.next.injEq] at h
    exact .inl ⟨ha, r, hr, h.symm⟩
  · simp only [step, prepare_of_noFetch ha hr hf, Host.Outcome.next.injEq] at h
    exact .inr (.inl ⟨ha, hr, hf, h.symm⟩)
  · simp only [step, prepare_of_runsUnsupported hw, Host.Outcome.next.injEq] at h
    exact .inr (.inr (.inl ⟨w, hw, h.symm⟩))
  · simp only [step, prepare_of_runs hi] at h
    exact .inr (.inr (.inr ⟨i, hi, h⟩))

/-- The two things the key-wait phase can come to (40_step_cycle.md R93). -/
theorem resolveWait_cases (s : State) (r : Reg) :
    (s.input.pressedKeys = 0#16 ∧ s.resolveWait r = s) ∨
    ∃ k : Fin 16, lowestKey s.input.pressedKeys = some k ∧
      s.resolveWait r = (s.setReg r (BitVec.ofNat 8 k.val)).setWait .running := by
  cases h : lowestKey s.input.pressedKeys with
  | none => exact .inl ⟨(lowestKey_none_iff _).1 h, by simp [State.resolveWait, h]⟩
  | some k => exact .inr ⟨k, rfl, by simp [State.resolveWait, h]⟩

end Sys2Proof.Machine
end

