-- ==== Sys2Proof/Laws/Frames.lean ====
section
/-! SUPPORT. Frames: what each primitive update leaves unchanged, how frames compose, and the frame of the start of a
step. -/

namespace Sys2Proof.Machine

/-! ## Composition -/

theorem Frame.refl (s : State) : Frame [] [] s s :=
  ⟨fun _ _ => rfl, fun p _ => by cases p <;> simp [Part.Kept]⟩

theorem Part.Kept.trans {p : Part} {s t u : State} (h : p.Kept s t) (h' : p.Kept t u) : p.Kept s u := by
  cases p <;> simp_all [Part.Kept]

theorem Frame.trans {ds ds' : List Reg} {ps ps' : List Part} {s t u : State} (h : Frame ds ps s t)
    (h' : Frame ds' ps' t u) : Frame (ds ++ ds') (ps ++ ps') s u := by
  refine ⟨fun r hr => ?_, fun p hp => ?_⟩
  · rw [List.mem_append, not_or] at hr
    rw [h'.1 r hr.2, h.1 r hr.1]
  · rw [List.mem_append, not_or] at hp
    exact (h.2 p hp.1).trans (h'.2 p hp.2)

theorem Frame.mono {ds ds' : List Reg} {ps ps' : List Part} {s t : State} (h : Frame ds ps s t) (h1 : ds ⊆ ds')
    (h2 : ps ⊆ ps') : Frame ds' ps' s t :=
  ⟨fun r hr => h.1 r fun e => hr (h1 e), fun p hp => h.2 p fun e => hp (h2 e)⟩

/-! ## Primitive updates -/

theorem setReg_frame (s : State) (x : Reg) (b : Byte) : Frame [x] [] s (s.setReg x b) :=
  ⟨fun r hr => s.reg_setReg_ne b (by simpa using hr), fun p _ => by cases p <;> simp [Part.Kept]⟩

theorem setReg_setReg_frame (s : State) (x y : Reg) (b c : Byte) :
    Frame [x, y] [] s ((s.setReg x b).setReg y c) := (setReg_frame s x b).trans (setReg_frame _ y c)

theorem setI_frame (s : State) (w : Word) : Frame [] [.index] s (s.setI w) :=
  ⟨fun _ _ => rfl, fun p hp => by cases p <;> simp_all [Part.Kept]⟩

theorem jump_frame (s : State) (w : Word) : Frame [] [.pc] s (s.jump w) :=
  ⟨fun _ _ => rfl, fun p hp => by cases p <;> simp_all [Part.Kept]⟩

theorem halt_frame (s : State) (k : FatalKind) (w : Option Word) (a : Word) : Frame [] [.status] s (s.halt k w a) :=
  ⟨fun _ _ => rfl, fun p hp => by cases p <;> simp_all [Part.Kept]⟩

theorem pop_frame (s : State) : Frame [] [.stack] s s.pop :=
  ⟨fun _ _ => rfl, fun p hp => by cases p <;> simp_all [Part.Kept]⟩

theorem push_frame (s : State) (w : Word) : Frame [] [.stack] s (s.push w) :=
  ⟨fun r _ => s.reg_push r w, fun p hp => by cases p <;> simp_all [Part.Kept]⟩

theorem store_frame (s : State) (a : Nat) (bs : List Byte) : Frame [] [.memory] s (s.store a bs) :=
  ⟨fun _ _ => rfl, fun p hp => by cases p <;> simp_all [Part.Kept]⟩

theorem setDT_frame (s : State) (b : Byte) : Frame [] [.delay] s (s.setDT b) :=
  ⟨fun _ _ => rfl, fun p hp => by cases p <;> simp_all [Part.Kept]⟩

theorem setST_frame (s : State) (b : Byte) : Frame [] [.sound] s (s.setST b) :=
  ⟨fun _ _ => rfl, fun p hp => by cases p <;> simp_all [Part.Kept]⟩

theorem setWait_frame (s : State) (w : KeyWait) : Frame [] [.wait] s (s.setWait w) :=
  ⟨fun _ _ => rfl, fun p hp => by cases p <;> simp_all [Part.Kept]⟩

theorem setReport_frame (s : State) (r : Option Report) : Frame [] [.report] s (s.setReport r) :=
  ⟨fun _ _ => rfl, fun p hp => by cases p <;> simp_all [Part.Kept]⟩

theorem loadRegsFrom_frame (s : State) (x : Reg) (f : Nat → Byte) :
    Frame ((List.finRange 16).filter fun k => k.val ≤ x.val) [] s (s.loadRegsFrom x f) := by
  refine ⟨fun r hr => ?_, fun p _ => by cases p <;> simp [Part.Kept]⟩
  rw [State.reg_loadRegsFrom, if_neg (by simpa using hr)]

theorem clearFrame_frame (s : State) : Frame [] [.display] s { s with fb := clearFrame } :=
  ⟨fun _ _ => rfl, fun p hp => by
    cases p <;> first | rfl | exact ⟨rfl, fun _ => rfl⟩ | exact ⟨rfl, rfl, rfl⟩ | exact fun _ => rfl | simp at hp⟩

theorem resolveWait_frame (s : State) (r : Reg) : Frame [r] [.wait] s (s.resolveWait r) := by
  rcases resolveWait_cases s r with ⟨_, e⟩ | ⟨k, _, e⟩ <;> rw [e]
  · exact (Frame.refl s).mono (by simp) (by simp)
  · exact ((setReg_frame s _ _).trans (setWait_frame _ _)).mono (by simp) (by simp)

/-! ## The start of a step -/

theorem begin_frame (s : State) : Frame [] stepParts s s.begin :=
  ⟨fun _ _ => rfl, fun p hp => by
    cases p <;> first | rfl | exact ⟨rfl, fun _ => rfl⟩ | exact fun _ => rfl | exact fun _ _ => rfl | simp [stepParts] at hp⟩

theorem begin_advance_frame (s : State) : Frame [] (.pc :: stepParts) s s.begin.advance :=
  ((begin_frame s).trans (jump_frame _ _)).mono (by simp) (by decide)

/-- Phase (a) on the delay timer (40_step_cycle.md R92). -/
theorem begin_dt_toNat (s : State) : s.begin.dt.toNat = pulsed s s.dt := by
  show (if s.nextInput.decrementTimers then tick s.dt else s.dt).toNat = pulsed s s.dt
  unfold pulsed
  split_ifs
  · exact tick_toNat s.dt
  · rfl

/-- Phase (a) on the sound timer (40_step_cycle.md R92). -/
theorem begin_st_toNat (s : State) : s.begin.st.toNat = pulsed s s.st := by
  show (if s.nextInput.decrementTimers then tick s.st else s.st).toNat = pulsed s s.st
  unfold pulsed
  split_ifs
  · exact tick_toNat s.st
  · rfl

end Sys2Proof.Machine
end

