-- ==== Sys2Proof/Laws/Exec.lean ====
section
/-! SUPPORT. What any instruction can do, said once for all 34: it always gives a next state, and it changes only the
registers and parts listed here (10_state.md R21 to R31). -/

namespace Sys2Proof.Machine

/-- The general registers an instruction can write, VF as a flag among them (10_state.md R21). -/
def writtenRegs : Instr → List Reg
  | .ldByte x _ | .addByte x _ | .ldReg x _ | .or x _ | .and x _ | .xor x _ | .rnd x _ | .ldVxDT x => [x]
  | .addReg x _ | .sub x _ | .subn x _ => [x, Reg.vf]
  | .shr x _ | .shl x _ => [Reg.vf, x]
  | .drw _ _ _ => [Reg.vf]
  | .loadRegs x => (List.finRange 16).filter fun k => k.val ≤ x.val
  | .cls | .ret | .jp _ | .call _ | .seByte _ _ | .sneByte _ _ | .seReg _ _ | .sneReg _ _ | .ldI _ | .jpV0 _
  | .skp _ | .sknp _ | .ldVxK _ | .ldDTVx _ | .ldSTVx _ | .addI _ | .ldF _ | .ldB _ | .storeRegs _ => []

/-- The other parts of the state an instruction can change; `status` where it can raise a fatal error. -/
def writtenParts : Instr → List Part
  | .ret | .call _ => [.pc, .stack, .status]
  | .jp _ | .jpV0 _ | .seByte _ _ | .sneByte _ _ | .seReg _ _ | .sneReg _ _ => [.pc]
  | .skp _ | .sknp _ => [.pc, .status]
  | .cls => [.display]
  | .drw _ _ _ => [.display, .status]
  | .ldI _ => [.index]
  | .addI _ | .ldF _ => [.index, .status]
  | .ldB _ | .storeRegs _ => [.memory, .status]
  | .loadRegs _ => [.status]
  | .ldVxK _ => [.wait]
  | .ldDTVx _ => [.delay]
  | .ldSTVx _ => [.sound]
  | .ldByte _ _ | .addByte _ _ | .ldReg _ _ | .or _ _ | .and _ _ | .xor _ _ | .addReg _ _ | .sub _ _ | .shr _ _
  | .subn _ _ | .shl _ _ | .rnd _ _ | .ldVxDT _ => []

/-- A guarded effect always gives a next state. -/
theorem guardFatal_next {bad : Prop} [Decidable bad] (k : FatalKind) (i : Instr) (s e : State) :
    ∃ t, guardFatal bad k i s e = .next t := by
  by_cases h : bad
  · exact ⟨_, guardFatal_bad k i s e h⟩
  · exact ⟨_, guardFatal_good k i s e h⟩

/-- Every instruction gives a next state in every state. -/
theorem exec_next (i : Instr) (s : State) : ∃ t, exec i s = .next t := by
  cases i <;> first | exact ⟨_, rfl⟩ | exact guardFatal_next _ _ _ _

/-- A guarded effect with its frame. -/
theorem guardFatal_frame {bad : Prop} [Decidable bad] {k : FatalKind} {i : Instr} {s e t : State} {ds : List Reg}
    {ps qs : List Part} (h : guardFatal bad k i s e = .next t) (he : Frame ds ps s e) (hp : ps ⊆ qs)
    (hs : Part.status ∈ qs) : Frame ds qs s t := by
  rcases guardFatal_cases h with ⟨_, rfl⟩ | ⟨_, rfl⟩
  · exact (raise_halts s k i).1.mono (by simp) (by simpa using hs)
  · exact he.mono (List.Subset.refl _) hp

/-- The frame of every instruction. -/
theorem exec_frame {i : Instr} {s t : State} (h : exec i s = .next t) : Frame (writtenRegs i) (writtenParts i) s t := by
  cases i
  case ret => exact guardFatal_frame h ((pop_frame s).trans (jump_frame _ _)) (by simp [writtenParts]) (by simp [writtenParts])
  case call => exact guardFatal_frame h ((push_frame s _).trans (jump_frame _ _)) (by simp [writtenParts]) (by simp [writtenParts])
  case drw => exact guardFatal_frame h (drawSprite_frame s _ _ _) (by simp [writtenParts]) (by simp [writtenParts])
  case skp => exact guardFatal_frame h (jump_frame s _) (by simp [writtenParts]) (by simp [writtenParts])
  case sknp => exact guardFatal_frame h (jump_frame s _) (by simp [writtenParts]) (by simp [writtenParts])
  case addI => exact guardFatal_frame h (setI_frame s _) (by simp [writtenParts]) (by simp [writtenParts])
  case ldF => exact guardFatal_frame h (setI_frame s _) (by simp [writtenParts]) (by simp [writtenParts])
  case ldB => exact guardFatal_frame h (store_frame s _ _) (by simp [writtenParts]) (by simp [writtenParts])
  case storeRegs => exact guardFatal_frame h (store_frame s _ _) (by simp [writtenParts]) (by simp [writtenParts])
  case loadRegs => exact guardFatal_frame h (loadRegsFrom_frame s _ _) (by simp [writtenParts]) (by simp [writtenParts])
  all_goals obtain rfl := Host.Outcome.next.inj h
  case cls => exact clearFrame_frame s
  case ldI => exact setI_frame s _
  case ldVxK => exact setWait_frame s _
  case ldDTVx => exact setDT_frame s _
  case ldSTVx => exact setST_frame s _
  all_goals first | exact jump_frame s _ | exact setReg_frame s _ _ | exact setReg_setReg_frame s _ _ _ _

end Sys2Proof.Machine
end

