-- ==== Sys2Proof/Laws/PerInstr.lean ====
section
/-! SUPPORT. Laws of every instruction as syntax, one lemma per constructor. -/

/-- The family DecodeEncode: the word of a well-formed instruction decodes to it (30_encoding.md R73, R74). -/
def Sys2Proof.Laws.DecodeEncode.Statement (i : Sys2Proof.Instr) : Prop :=
  i.wellFormed = true → Sys2Proof.decode (Sys2Proof.encode i) = .instr i

namespace Sys2Proof.Laws.DecodeEncode

theorem cls : Statement .cls := by intro _; decide
theorem ret : Statement .ret := by intro _; decide
theorem jp (nnn : BitVec 12) : Statement (.jp nnn) := by intro _; simp [decode, encode]
theorem call (nnn : BitVec 12) : Statement (.call nnn) := by intro _; simp [decode, encode]
theorem seByte (x : Sys2Proof.Reg) (kk : Sys2Proof.Byte) : Statement (.seByte x kk) := by intro _; simp [decode, encode]
theorem sneByte (x : Sys2Proof.Reg) (kk : Sys2Proof.Byte) : Statement (.sneByte x kk) := by intro _; simp [decode, encode]
theorem seReg (x y : Sys2Proof.Reg) : Statement (.seReg x y) := by intro _; simp [decode, encode]
theorem ldByte (x : Sys2Proof.Reg) (kk : Sys2Proof.Byte) : Statement (.ldByte x kk) := by intro _; simp [decode, encode]
theorem addByte (x : Sys2Proof.Reg) (kk : Sys2Proof.Byte) : Statement (.addByte x kk) := by intro _; simp [decode, encode]
theorem ldReg (x y : Sys2Proof.Reg) : Statement (.ldReg x y) := by intro _; simp [decode, decode8, encode]
theorem or (x y : Sys2Proof.Reg) : Statement (.or x y) := by intro _; simp [decode, decode8, encode]
theorem and (x y : Sys2Proof.Reg) : Statement (.and x y) := by intro _; simp [decode, decode8, encode]
theorem xor (x y : Sys2Proof.Reg) : Statement (.xor x y) := by intro _; simp [decode, decode8, encode]
theorem addReg (x y : Sys2Proof.Reg) : Statement (.addReg x y) := by intro _; simp [decode, decode8, encode]
theorem sub (x y : Sys2Proof.Reg) : Statement (.sub x y) := by intro _; simp [decode, decode8, encode]
theorem shr (x y : Sys2Proof.Reg) : Statement (.shr x y) := by intro _; simp [decode, decode8, encode]
theorem subn (x y : Sys2Proof.Reg) : Statement (.subn x y) := by intro _; simp [decode, decode8, encode]
theorem shl (x y : Sys2Proof.Reg) : Statement (.shl x y) := by intro _; simp [decode, decode8, encode]
theorem sneReg (x y : Sys2Proof.Reg) : Statement (.sneReg x y) := by intro _; simp [decode, encode]
theorem ldI (nnn : BitVec 12) : Statement (.ldI nnn) := by intro _; simp [decode, encode]
theorem jpV0 (nnn : BitVec 12) : Statement (.jpV0 nnn) := by intro _; simp [decode, encode]
theorem rnd (x : Sys2Proof.Reg) (kk : Sys2Proof.Byte) : Statement (.rnd x kk) := by intro _; simp [decode, encode]
theorem drw (x y : Sys2Proof.Reg) (n : Nat) : Statement (.drw x y n) := by
  intro h
  have hn : n % 16 = n := Nat.mod_eq_of_lt (by simpa [Instr.wellFormed] using h)
  simp [decode, encode, hn]
theorem skp (x : Sys2Proof.Reg) : Statement (.skp x) := by intro _; simp [decode, decodeE, encode]
theorem sknp (x : Sys2Proof.Reg) : Statement (.sknp x) := by intro _; simp [decode, decodeE, encode]
theorem ldVxDT (x : Sys2Proof.Reg) : Statement (.ldVxDT x) := by intro _; simp [decode, decodeF, encode]
theorem ldVxK (x : Sys2Proof.Reg) : Statement (.ldVxK x) := by intro _; simp [decode, decodeF, encode]
theorem ldDTVx (x : Sys2Proof.Reg) : Statement (.ldDTVx x) := by intro _; simp [decode, decodeF, encode]
theorem ldSTVx (x : Sys2Proof.Reg) : Statement (.ldSTVx x) := by intro _; simp [decode, decodeF, encode]
theorem addI (x : Sys2Proof.Reg) : Statement (.addI x) := by intro _; simp [decode, decodeF, encode]
theorem ldF (x : Sys2Proof.Reg) : Statement (.ldF x) := by intro _; simp [decode, decodeF, encode]
theorem ldB (x : Sys2Proof.Reg) : Statement (.ldB x) := by intro _; simp [decode, decodeF, encode]
theorem storeRegs (x : Sys2Proof.Reg) : Statement (.storeRegs x) := by intro _; simp [decode, decodeF, encode]
theorem loadRegs (x : Sys2Proof.Reg) : Statement (.loadRegs x) := by intro _; simp [decode, decodeF, encode]

end Sys2Proof.Laws.DecodeEncode
end

