-- ==== Sys2Proof/Tests/Slice0.lean ====
section
/-! SUPPORT. Tests of the model on fixed values, each expected result taken from spec/95_test_vectors.md (its id stands in
the docstring) or from the rule named, and one witness for the hypotheses of every statement that has some. -/

namespace Sys2Proof.Tests

open Sys2Proof.Machine

/-! ## Helpers -/

/-- The register file with the registers of the list set and the others 0. -/
def vregs (l : List (Reg × Byte)) : Vector Byte 16 := l.foldl (fun v p => v.set p.1.val p.2) (Vector.replicate 16 0#8)

/-- The block after Load of the default font, with `w` where it fetches next. -/
def at200 (w : Word) : State := State.reset.placeWord w

/-- The inputs of the next step listed. -/
def State.given (s : State) (pulse : Bool) (keys : Word) (rand : Byte) : State := { s with pending := [⟨pulse, keys, rand⟩] }

/-- Inputs "none": no pulse, no key, random byte 0. -/
def State.quiet (s : State) : State := State.given s false 0#16 0#8

/-- Bytes laid in memory. -/
def State.bytes (s : State) (a : Nat) (bs : List Byte) : State := { s with mem := s.mem.writeBytes a bs }

/-- The framebuffer with exactly the listed pixels 1, each as (column, row). -/
def lit (ps : List (Fin 64 × Fin 32)) : FrameBuffer := ps.foldl (fun fb p => setPixel fb p.2 p.1 true) clearFrame

/-- One step, seen through `f`. -/
def seen {α : Type} (f : State → α) (s : State) : Option α :=
  match step s with
  | .next t => some (f t)
  | .fault _ => none
  | .refused _ => none

/-- The state after one step. -/
def after (s : State) : State :=
  match step s with
  | .next t => t
  | .fault _ => s
  | .refused _ => s

/-- A HALTED status by an instruction at 0x200. -/
def haltedAt200 (k : FatalKind) (w : Word) : Status := .halted ⟨k, some w, 0x200#16⟩

/-! ## Well-formed terms -/

/-- The one check of WellFormed, 30_encoding.md R71: the row count is a 4-bit field. -/
theorem test_wellFormed_refuses_row_count_16 : (Instr.drw 0 0 16).wellFormed = false := by decide
theorem test_wellFormed_admits_row_count_15 : (Instr.drw 15 15 15).wellFormed = true := by decide

/-! ## Decoding: the words of the table "Decode checks for the opcode map" -/

theorem test_decode_control_flow :
    decode 0x00EE#16 = .instr .ret ∧ decode 0x1000#16 = .instr (.jp 0x000#12) ∧
    decode 0x2FFF#16 = .instr (.call 0xFFF#12) ∧ decode 0x3F00#16 = .instr (.seByte 15 0x00#8) ∧
    decode 0x4000#16 = .instr (.sneByte 0 0x00#8) ∧ decode 0x5FE0#16 = .instr (.seReg 15 14) ∧
    decode 0x9120#16 = .instr (.sneReg 1 2) ∧ decode 0xB000#16 = .instr (.jpV0 0x000#12) := by decide

theorem test_decode_alu :
    decode 0x6FFF#16 = .instr (.ldByte 15 0xFF#8) ∧ decode 0x7F80#16 = .instr (.addByte 15 0x80#8) ∧
    decode 0x8120#16 = .instr (.ldReg 1 2) ∧ decode 0x8121#16 = .instr (.or 1 2) ∧
    decode 0x8122#16 = .instr (.and 1 2) ∧ decode 0x8123#16 = .instr (.xor 1 2) ∧
    decode 0x8124#16 = .instr (.addReg 1 2) ∧ decode 0x8125#16 = .instr (.sub 1 2) ∧
    decode 0x8126#16 = .instr (.shr 1 2) ∧ decode 0x8127#16 = .instr (.subn 1 2) ∧
    decode 0x812E#16 = .instr (.shl 1 2) ∧ decode 0xC1FF#16 = .instr (.rnd 1 0xFF#8) := by decide

theorem test_decode_index_memory :
    decode 0xAFFF#16 = .instr (.ldI 0xFFF#12) ∧ decode 0xF11E#16 = .instr (.addI 1) ∧
    decode 0xF129#16 = .instr (.ldF 1) ∧ decode 0xF133#16 = .instr (.ldB 1) ∧
    decode 0xF155#16 = .instr (.storeRegs 1) ∧ decode 0xF165#16 = .instr (.loadRegs 1) := by decide

theorem test_decode_display :
    decode 0x00E0#16 = .instr .cls ∧ decode 0xD12F#16 = .instr (.drw 1 2 15) := by decide

theorem test_decode_timers_keys :
    decode 0xE19E#16 = .instr (.skp 1) ∧ decode 0xE1A1#16 = .instr (.sknp 1) ∧ decode 0xF107#16 = .instr (.ldVxDT 1) ∧
    decode 0xF10A#16 = .instr (.ldVxK 1) ∧ decode 0xF115#16 = .instr (.ldDTVx 1) ∧
    decode 0xF118#16 = .instr (.ldSTVx 1) := by decide

/-- V-T8 to V-T18: words that match no row. -/
theorem test_decode_unsupported :
    [0x0123#16, 0x5121#16, 0x8128#16, 0xE1FF#16, 0xF1FF#16, 0x0000#16, 0x9AB1#16, 0x00E1#16, 0x800F#16, 0xE09F#16,
      0xF066#16].map decode =
    [0x0123#16, 0x5121#16, 0x8128#16, 0xE1FF#16, 0xF1FF#16, 0x0000#16, 0x9AB1#16, 0x00E1#16, 0x800F#16, 0xE09F#16,
      0xF066#16].map .unsupported := by decide

/-- The decoder on bytes takes the byte at the lower address as bits 15:8 and leaves the rest (20_memory.md R54). -/
theorem test_decodeBytes : decodeBytes [0x61#8, 0x23#8, 0x99#8] = .instr (.ldByte 1 0x23#8) [0x99#8] ∧
    decodeBytes [0x51#8, 0x21#8] = .unsupported 0x5121#16 [] ∧ decodeBytes [0x61#8] = .truncated := by decide

theorem test_decodeTableWord : decodeTableWord 16 0xD12F = some (.drw 1 2 15) ∧ decodeTableWord 16 0x8128 = none := by
  decide

/-- The words of the same table, from the encoder. -/
theorem test_encode : encode (.drw 1 2 15) = 0xD12F#16 ∧ encode (.shl 1 2) = 0x812E#16 ∧
    encode (.seReg 15 14) = 0x5FE0#16 ∧ encode (.storeRegs 1) = 0xF155#16 ∧ encode (.call 0xFFF#12) = 0x2FFF#16 ∧
    encodeBytes (.ldI 0x300#12) = [0xA3#8, 0x00#8] := by decide

/-- 30_encoding.md R82: `SHR V1` may be written for y = 0; `JP V1, 0x300` is no spelling. -/
theorem test_assemble : assemble ⟨.shr, [.v 1]⟩ = some (.shr 1 0) ∧ assemble ⟨.ld, [.atI, .v 2]⟩ = some (.storeRegs 2) ∧
    assemble ⟨.jp, [.v 1, .num 0x300]⟩ = none ∧ assemble ⟨.ld, [.v 1, .num 0x100]⟩ = none := by decide

/-! ## Load, reset, the host's interface -/

/-- V-E4 on the state after reset. -/
theorem test_reset_registers : State.reset.pc = 0x200#16 ∧ State.reset.sp = 0 ∧ State.reset.wait = .running ∧
    State.reset.status = .active ∧ State.reset.mem.wf ∧ State.reset.fb = lit [] := by decide

/-- 20_memory.md R51: glyph "5" at 0x019, 0 at 0x050 and in the program area. -/
theorem test_reset_memory : (List.range 5).map (fun k => State.reset.mem.read (0x019 + k)) =
    [0xF0#8, 0x80#8, 0xF0#8, 0x10#8, 0xF0#8] ∧ State.reset.mem.read 0x050 = 0#8 ∧ State.reset.mem.read 0x200 = 0#8 := by
  decide

/-- V-E2 on a ROM of 3585 bytes. -/
theorem test_load_too_large : load Config.defaultFont (List.replicate 3585 0#8) = .romTooLarge := by
  rw [load, if_pos]
  rw [List.length_replicate]
  decide

/-- 70_reset_and_hazards.md R231: the ROM stands at 0x200. -/
theorem test_load_small : (match load Config.defaultFont [0x62#8, 0x05#8] with
    | .loaded s => some (s.fetchWord, s.pc)
    | .romTooLarge => none) = some (0x6205#16, 0x200#16) := by decide

/-- 40_step_cycle.md R102, R103: reads, and one more step of inputs listed. -/
theorem test_host_reads : readDelayTimer { State.reset with dt := 7#8 } = 7#8 ∧
    readSoundTimer { State.reset with st := 9#8 } = 9#8 ∧ readStatus State.reset = .active ∧
    readFramebuffer State.reset = clearFrame ∧
    (State.present State.reset ⟨true, 1#16, 2#8⟩).nextInput = ⟨true, 1#16, 2#8⟩ := by decide

/-- A stored byte reads back, its neighbours do not change, and writing the reset value back removes the cell. -/
theorem test_memory : ((⟨[]⟩ : Memory).write 0x300 5#8).read 0x300 = 5#8 ∧
    ((⟨[]⟩ : Memory).write 0x300 5#8).read 0x301 = 0#8 ∧
    ((⟨[]⟩ : Memory).write 0x300 5#8).write 0x300 0#8 = ⟨[]⟩ ∧
    ((⟨[]⟩ : Memory).write 0x000 0xF0#8) = ⟨[]⟩ := by decide

/-! ## The step -/

/-- V-T1, V-T2. -/
theorem test_pulse : seen (fun t => (t.dt, t.st, t.pc))
      (State.given { at200 0x6000#16 with dt := 5#8, st := 1#8 } true 0#16 0#8) = some (4#8, 0#8, 0x202#16) ∧
    seen (fun t => (t.dt, t.st)) (State.given (at200 0x6000#16) true 0#16 0#8) = some (0#8, 0#8) := by decide

/-- V-T3: a wait with no key still takes the pulse. -/
theorem test_wait_stays : seen (fun t => (t.dt, t.wait, t.pc))
    (State.given { State.reset with wait := .waiting 3, pc := 0x202#16, dt := 2#8 } true 0#16 0#8) =
    some (1#8, .waiting 3, 0x202#16) := by decide

/-- V-T4: the lowest key wins and nothing is fetched. -/
theorem test_wait_resolves : seen (fun t => (t.reg 3, t.wait, t.pc, t.report))
    (State.given { State.reset with wait := .waiting 3, pc := 0x202#16 } false 0x0090#16 0#8) =
    some (4#8, .running, 0x202#16, none) := by decide

/-- V-T6: the fetch at 0xFFE is legal. -/
theorem test_fetch_last_word : seen (fun t => (t.pc, t.report)) (State.quiet { State.reset with pc := 0xFFE#16 }) =
    some (0x1000#16, some ⟨0#16, 0xFFE#16⟩) := by decide

/-- V-T6b. -/
theorem test_fetch_out_of_range : seen (fun t => (t.pc, t.status)) (State.quiet { State.reset with pc := 0xFFF#16 }) =
    some (0xFFF#16, .halted ⟨.fetchOutOfRange, none, 0xFFF#16⟩) := by decide

/-- V-T7: an odd pc. -/
theorem test_fetch_odd : seen (fun t => (t.reg 1, t.pc))
    (State.quiet (State.bytes { State.reset with pc := 0x201#16 } 0x201 [0x61#8, 0x23#8])) = some (0x23#8, 0x203#16) := by
  decide

/-- V-T9: no skip, a report. -/
theorem test_unsupported : seen (fun t => (t.pc, t.report)) (State.quiet { at200 0x5121#16 with v := vregs [(1, 3#8), (2, 3#8)] }) =
    some (0x202#16, some ⟨0x5121#16, 0x200#16⟩) := by decide

/-- V-T19. -/
theorem test_halted_has_no_step : step { State.reset with status := haltedAt200 .stackUnderflow 0x00EE#16 } = .fault .halted :=
  rfl

/-- V-E5: the pulse comes before the error. -/
theorem test_pulse_before_error : seen (fun t => (t.dt, t.pc, t.status)) (State.given { at200 0x00EE#16 with dt := 5#8 } true 0#16 0#8) =
    some (4#8, 0x202#16, haltedAt200 .stackUnderflow 0x00EE#16) := by decide

/-! ## Control flow -/

/-- V-F1. -/
theorem test_ret : seen (fun t => (t.pc, t.sp.val, t.slot 0))
    (State.quiet { at200 0x00EE#16 with sp := 1, stack := (Vector.replicate 16 0#16).set 0 0x3A2#16 }) =
    some (0x3A2#16, 0, 0x3A2#16) := by decide

/-- V-F3. -/
theorem test_jp : seen State.pc (State.quiet (at200 0x1ABC#16)) = some 0xABC#16 := by decide

/-- V-F6b. -/
theorem test_call : seen (fun t => (t.pc, t.sp.val, t.slot 15)) (State.quiet { at200 0x2ABC#16 with sp := 15 }) =
    some (0xABC#16, 16, 0x202#16) := by decide

/-- V-F6. -/
theorem test_call_overflow : seen (fun t => (t.pc, t.sp.val, t.status)) (State.quiet { at200 0x2ABC#16 with sp := 16 }) =
    some (0x202#16, 16, haltedAt200 .stackOverflow 0x2ABC#16) := by decide

/-- V-F7, V-F8. -/
theorem test_seByte : seen State.pc (State.quiet { at200 0x3A42#16 with v := vregs [(10, 0x42#8)] }) = some 0x204#16 ∧
    seen State.pc (State.quiet { at200 0x3A42#16 with v := vregs [(10, 0x41#8)] }) = some 0x202#16 := by decide

/-- V-F9, V-F10. -/
theorem test_sneByte : seen State.pc (State.quiet { at200 0x4A42#16 with v := vregs [(10, 0x42#8)] }) = some 0x202#16 ∧
    seen State.pc (State.quiet { at200 0x4A42#16 with v := vregs [(10, 0x41#8)] }) = some 0x204#16 := by decide

/-- V-F11, V-F12. -/
theorem test_seReg : seen State.pc (State.quiet { at200 0x5AB0#16 with v := vregs [(10, 7#8), (11, 7#8)] }) = some 0x204#16 ∧
    seen State.pc (State.quiet { at200 0x5AB0#16 with v := vregs [(10, 7#8), (11, 8#8)] }) = some 0x202#16 := by decide

/-- V-F13, V-F14. -/
theorem test_sneReg : seen State.pc (State.quiet { at200 0x9AB0#16 with v := vregs [(10, 7#8), (11, 8#8)] }) = some 0x204#16 ∧
    seen State.pc (State.quiet { at200 0x9AB0#16 with v := vregs [(10, 7#8), (11, 7#8)] }) = some 0x202#16 := by decide

/-- V-F16: the largest pc any rule can produce. -/
theorem test_jpV0 : seen State.pc (State.quiet { at200 0xBFFF#16 with v := vregs [(0, 0xFF#8)] }) = some 0x10FE#16 := by decide

/-- V-F18: a skip past the end does not fault itself. -/
theorem test_skip_past_end : seen State.pc (State.quiet (State.bytes { State.reset with pc := 0xFFC#16 } 0xFFC [0x30#8, 0#8])) =
    some 0x1000#16 := by decide

/-! ## Arithmetic and logic -/

/-- V-A1. -/
theorem test_ldByte : seen (fun t => (t.reg 10, t.pc)) (State.quiet (at200 0x6AFF#16)) = some (0xFF#8, 0x202#16) := by decide

/-- V-A2: no carry flag. -/
theorem test_addByte : seen (fun t => (t.reg 10, t.reg 15)) (State.quiet { at200 0x7A02#16 with v := vregs [(10, 0xFF#8), (15, 0x55#8)] }) =
    some (0x01#8, 0x55#8) := by decide

/-- V-A3. -/
theorem test_ldReg : seen (State.reg · 10) (State.quiet { at200 0x8AB0#16 with v := vregs [(11, 0x3C#8)] }) = some 0x3C#8 := by decide

/-- V-A4: VF stays. -/
theorem test_or : seen (fun t => (t.reg 10, t.reg 15))
    (State.quiet { at200 0x8AB1#16 with v := vregs [(10, 0x0F#8), (11, 0xF0#8), (15, 0x55#8)] }) = some (0xFF#8, 0x55#8) := by decide

/-- V-A5. -/
theorem test_and : seen (State.reg · 10) (State.quiet { at200 0x8AB2#16 with v := vregs [(10, 0x0F#8), (11, 0xF8#8)] }) = some 0x08#8 := by
  decide

/-- V-A6. -/
theorem test_xor : seen (State.reg · 10) (State.quiet { at200 0x8AB3#16 with v := vregs [(10, 0xFF#8), (11, 0x0F#8)] }) = some 0xF0#8 := by
  decide

/-- V-A9, V-A8. -/
theorem test_addReg : seen (fun t => (t.reg 10, t.reg 15))
      (State.quiet { at200 0x8AB4#16 with v := vregs [(10, 0x7F#8), (11, 0x80#8), (15, 1#8)] }) = some (0xFF#8, 0#8) ∧
    seen (fun t => (t.reg 10, t.reg 15)) (State.quiet { at200 0x8AB4#16 with v := vregs [(10, 0x80#8), (11, 0x80#8)] }) =
      some (0#8, 1#8) := by decide

/-- V-A11: the flag is written last. -/
theorem test_addReg_vf : seen (State.reg · 15) (State.quiet { at200 0x8F14#16 with v := vregs [(15, 0x10#8), (1, 1#8)] }) = some 0#8 := by
  decide

/-- V-A14, V-A15. -/
theorem test_sub : seen (fun t => (t.reg 10, t.reg 15)) (State.quiet { at200 0x8AB5#16 with v := vregs [(10, 3#8), (11, 5#8)] }) =
      some (0xFE#8, 0#8) ∧
    seen (fun t => (t.reg 10, t.reg 15)) (State.quiet { at200 0x8AB5#16 with v := vregs [(10, 7#8), (11, 7#8)] }) =
      some (0#8, 1#8) := by decide

/-- V-A18, V-A19. -/
theorem test_subn : seen (fun t => (t.reg 10, t.reg 15)) (State.quiet { at200 0x8AB7#16 with v := vregs [(10, 3#8), (11, 5#8)] }) =
      some (2#8, 1#8) ∧
    seen (fun t => (t.reg 10, t.reg 15)) (State.quiet { at200 0x8AB7#16 with v := vregs [(10, 5#8), (11, 3#8)] }) =
      some (0xFE#8, 0#8) := by decide

/-- V-A21: VB is ignored. -/
theorem test_shr : seen (fun t => (t.reg 10, t.reg 15, t.reg 11))
    (State.quiet { at200 0x8AB6#16 with v := vregs [(10, 5#8), (11, 0xFF#8)] }) = some (2#8, 1#8, 0xFF#8) := by decide

/-- V-A24. -/
theorem test_shr_vf : seen (State.reg · 15) (State.quiet { at200 0x8F06#16 with v := vregs [(15, 3#8)] }) = some 0#8 := by decide

/-- V-A25. -/
theorem test_shl : seen (fun t => (t.reg 10, t.reg 15)) (State.quiet { at200 0x8ABE#16 with v := vregs [(10, 0x81#8)] }) = some (2#8, 1#8) := by
  decide

/-- V-A28. -/
theorem test_shl_vf : seen (State.reg · 15) (State.quiet { at200 0x8F0E#16 with v := vregs [(15, 0x81#8)] }) = some 2#8 := by decide

/-- V-A30. -/
theorem test_rnd : seen (State.reg · 10) (State.given (at200 0xCA0F#16) false 0#16 0xAB#8) = some 0x0B#8 := by decide

/-! ## Index register and memory -/

/-- V-I1. -/
theorem test_ldI : seen State.i (State.quiet (at200 0xA123#16)) = some 0x123#16 := by decide

/-- V-I4, V-I3. -/
theorem test_addI : seen (fun t => (t.i, t.reg 15))
      (State.quiet { at200 0xF31E#16 with i := 0xFF00#16, v := vregs [(3, 0xFF#8), (15, 0x55#8)] }) = some (0xFFFF#16, 0x55#8) ∧
    seen (fun t => (t.i, t.status)) (State.quiet { at200 0xF31E#16 with i := 0xFFFF#16, v := vregs [(3, 1#8)] }) =
      some (0xFFFF#16, haltedAt200 .indexOverflow 0xF31E#16) := by decide

/-- V-I5, V-I7. -/
theorem test_ldF : seen State.i (State.quiet { at200 0xF329#16 with v := vregs [(3, 0x0F#8)] }) = some 0x04B#16 ∧
    seen State.status (State.quiet { at200 0xF329#16 with v := vregs [(3, 0x10#8)] }) =
      some (haltedAt200 .fontIndexRange 0xF329#16) := by decide

/-- V-I8, V-I12. -/
theorem test_ldB : seen (fun t => ((List.range 4).map fun k => t.mem.read (0x300 + k), t.i))
      (State.quiet { at200 0xF333#16 with i := 0x300#16, v := vregs [(3, 0xFF#8)] }) = some ([2#8, 5#8, 5#8, 0#8], 0x300#16) ∧
    seen (fun t => (List.range 3).map fun k => t.mem.read (0xFFD + k))
      (State.quiet { at200 0xF333#16 with i := 0xFFD#16, v := vregs [(3, 1#8)] }) = some [0#8, 0#8, 1#8] := by decide

/-- V-I13: nothing is written. -/
theorem test_ldB_bounds : seen (fun t => (t.status, decide (t.mem = (at200 0xF333#16).mem)))
    (State.quiet { at200 0xF333#16 with i := 0xFFE#16, v := vregs [(3, 1#8)] }) =
    some (haltedAt200 .boundsViolation 0xF333#16, true) := by decide

/-- V-I14. -/
theorem test_storeRegs : seen (fun t => ((List.range 4).map fun k => t.mem.read (0x300 + k), t.i))
    (State.quiet { at200 0xF255#16 with i := 0x300#16, v := vregs [(0, 1#8), (1, 2#8), (2, 3#8), (3, 4#8)] }) =
    some ([1#8, 2#8, 3#8, 0#8], 0x300#16) := by decide

/-- V-I16. -/
theorem test_storeRegs_bounds : seen (fun t => (t.mem.read 0xFFF, t.status))
    (State.quiet { at200 0xF155#16 with i := 0xFFF#16, v := vregs [(0, 0xAA#8)] }) =
    some (0#8, haltedAt200 .boundsViolation 0xF155#16) := by decide

/-- V-I18. -/
theorem test_loadRegs : seen (fun t => (t.reg 0, t.reg 1, t.reg 2, t.reg 3))
    (State.quiet (State.bytes { at200 0xF265#16 with i := 0x300#16, v := vregs [(3, 0x77#8)] } 0x300 [0x11#8, 0x22#8, 0x33#8, 0x44#8])) =
    some (0x11#8, 0x22#8, 0x33#8, 0x77#8) := by decide

/-- V-I19 on V0, V5 and VF (default FONT). -/
theorem test_loadRegs_all : seen (fun t => (t.reg 0, t.reg 5, t.reg 15)) (State.quiet (at200 0xFF65#16)) =
    some (0xF0#8, 0x20#8, 0xF0#8) := by decide

/-! ## Display -/

/-- V-DR1. -/
theorem test_cls : seen (fun t => (decide (t.fb = lit []), t.reg 15))
    (State.quiet { at200 0x00E0#16 with v := vregs [(15, 1#8)], fb := lit [(0, 0), (63, 31), (10, 5)] }) = some (true, 1#8) := by decide

/-- V-DR5: both coordinates reduced, and a wrap over the right edge. -/
theorem test_drw_wraps : seen (fun t => (decide (t.fb = lit [(6, 1), (63, 1)]), t.reg 15))
    (State.quiet (State.bytes { at200 0xDAB1#16 with i := 0x300#16, v := vregs [(10, 0x7F#8), (11, 0x21#8)] } 0x300 [0x81#8])) =
    some (true, 0#8) := by decide

/-- V-DR13: a collision in the last row. -/
theorem test_drw_collides : seen (fun t => (decide (t.fb = lit [(0, 0), (0, 1)]), t.reg 15))
    (State.quiet (State.bytes { at200 0xD013#16 with i := 0x300#16, fb := lit [(0, 2)] } 0x300 [0x80#8, 0x80#8, 0x80#8])) =
    some (true, 1#8) := by decide

/-- V-DR7, V-DR6: the last sprite byte beyond memory, and no row at all. -/
theorem test_drw_bounds : seen State.status (State.quiet { at200 0xDAB2#16 with i := 0xFFF#16 }) =
      some (haltedAt200 .boundsViolation 0xDAB2#16) ∧
    seen (fun t => (t.status, t.reg 15)) (State.quiet { at200 0xDAB0#16 with i := 0xFFF#16, v := vregs [(15, 1#8)] }) =
      some (.active, 0#8) := by decide

/-- V-DR12: the column is the old VF. -/
theorem test_drw_vf : seen (fun t => (decide (t.fb = lit [(5, 0)]), t.reg 15))
    (State.quiet (State.bytes { at200 0xDF01#16 with i := 0x300#16, v := vregs [(15, 5#8)] } 0x300 [0x80#8])) = some (true, 0#8) := by
  decide

/-! ## Timers and keys -/

/-- V-K1, V-K2. -/
theorem test_skp : seen State.pc (State.given { at200 0xE59E#16 with v := vregs [(5, 7#8)] } false 0x0080#16 0#8) = some 0x204#16 ∧
    seen State.pc (State.given { at200 0xE59E#16 with v := vregs [(5, 7#8)] } false 0x0040#16 0#8) = some 0x202#16 := by decide

/-- V-K3, V-K4. -/
theorem test_sknp : seen State.pc (State.given { at200 0xE5A1#16 with v := vregs [(5, 7#8)] } false 0x0080#16 0#8) = some 0x202#16 ∧
    seen State.pc (State.quiet { at200 0xE5A1#16 with v := vregs [(5, 7#8)] }) = some 0x204#16 := by decide

/-- V-K5, V-K6. -/
theorem test_key_range : seen State.status (State.given { at200 0xE59E#16 with v := vregs [(5, 0x10#8)] } false 0xFFFF#16 0#8) =
      some (haltedAt200 .keyIndexRange 0xE59E#16) ∧
    seen State.status (State.quiet { at200 0xE5A1#16 with v := vregs [(5, 0xFF#8)] }) =
      some (haltedAt200 .keyIndexRange 0xE5A1#16) := by decide

/-- V-K8. -/
theorem test_ldVxDT : seen (fun t => (t.reg 5, t.dt)) (State.given { at200 0xF507#16 with dt := 60#8 } true 0#16 0#8) =
    some (59#8, 59#8) := by decide

/-- V-K9: a key in the step of Fx0A is not seen. -/
theorem test_ldVxK : seen (fun t => (t.wait, t.pc, t.reg 5)) (State.given (at200 0xF50A#16) false 0x0080#16 0#8) =
    some (.waiting 5, 0x202#16, 0#8) := by decide

/-- V-K11. -/
theorem test_ldDTVx : seen State.dt (State.given { at200 0xF515#16 with dt := 9#8, v := vregs [(5, 0x3C#8)] } true 0#16 0#8) = some 60#8 := by
  decide

/-- V-K12. -/
theorem test_ldSTVx : seen State.st (State.quiet { at200 0xF518#16 with v := vregs [(5, 2#8)] }) = some 2#8 := by decide

/-! ## Witnesses: states and operands that meet the hypotheses of each statement -/

theorem runs_of {s : State} {i : Instr} (h : s.status = .active ∧ s.wait = .running ∧ s.canFetch ∧ decode s.fetchWord = .instr i) :
    s.runs i := ⟨⟨h.1, h.2.1, h.2.2.1⟩, h.2.2.2⟩

theorem fetches_of {s : State} (h : s.status = .active ∧ s.wait = .running ∧ s.canFetch) : s.fetches := h

/-- A state executes one instruction at most. -/
theorem runs_unique {s : State} {i j : Instr} (h : s.runs i) (h' : s.runs j) : i = j :=
  Decoded.instr.inj (h.2.symm.trans h'.2)

theorem not_instr {w : Word} (h : decode w = .unsupported w) (i : Instr) : decode w ≠ .instr i := by
  rw [h]
  exact fun e => Decoded.noConfusion e

/-- The invariant holds in a state that has the reset stack and is ACTIVE. -/
theorem inv_of {s : State} (h : s.mem.wf ∧ s.pc.toNat ≤ 0x10FE ∧ s.stack = State.reset.stack ∧ s.status = .active) : s.Inv := by
  obtain ⟨h1, h2, h3, h4⟩ := h
  refine ⟨h1, h2, fun k => ?_, ?_⟩
  · simp [State.slot, h3, State.reset]
  · rw [h4]
    trivial

theorem witness_DecodeAndEncodeAreInverse : (Instr.drw 15 15 15).wellFormed = true ∧ (Instr.drw 0 0 0).wellFormed = true ∧
    decode 0xDFFF#16 = .instr (.drw 15 15 15) := by decide

theorem witness_OpcodeMapDecidesDecoding : ⟨0x00EE#16, 0xFFFF#16⟩ ∈ opcodeMap ∧ OpRow.matches ⟨0x00EE#16, 0xFFFF#16⟩ 0x00EE#16 ∧
    ⟨0xF065#16, 0xF0FF#16⟩ ∈ opcodeMap ∧ OpRow.matches ⟨0xF065#16, 0xF0FF#16⟩ 0xFF65#16 ∧
    decode 0xFF65#16 = .instr (.loadRegs 15) := by decide

theorem witness_NibblesDecodeOnlyTheirTemplates :
    (nField 0x5FE0#16 = 0#4 ∧ opField 0x5FE0#16 = 0x5#4) ∧ (nField 0x9120#16 = 0#4 ∧ opField 0x9120#16 = 0x9#4) ∧
    [0x9E#8, 0xA1#8].map (fun k => (opField (encXKK 0xE#4 15 k), kkField (encXKK 0xE#4 15 k))) = [(0xE#4, 0x9E#8), (0xE#4, 0xA1#8)] ∧
    [0x07#8, 0x0A#8, 0x15#8, 0x18#8, 0x1E#8, 0x29#8, 0x33#8, 0x55#8, 0x65#8].map
      (fun k => (opField (encXKK 0xF#4 0 k), kkField (encXKK 0xF#4 0 k))) =
    [(0xF#4, 0x07#8), (0xF#4, 0x0A#8), (0xF#4, 0x15#8), (0xF#4, 0x18#8), (0xF#4, 0x1E#8), (0xF#4, 0x29#8),
      (0xF#4, 0x33#8), (0xF#4, 0x55#8), (0xF#4, 0x65#8)] := by decide

theorem witness_SpellingsAssembleToTheirInstruction : (Instr.drw 0 15 15).wellFormed = true ∧
    assemble ⟨.drw, [.v 0, .v 15, .num 15]⟩ = some (.drw 0 15 15) := by decide

/-- At 0x200 and at the last address a word can be fetched from. -/
theorem witness_StepRunsTheDecodedInstruction :
    ((at200 0x6000#16).status = .active ∧ (at200 0x6000#16).wait = .running ∧ (at200 0x6000#16).pc.toNat + 1 ≤ 0xFFF ∧
      decode (joinBytes ((at200 0x6000#16).mem.read (at200 0x6000#16).pc.toNat)
        ((at200 0x6000#16).mem.read ((at200 0x6000#16).pc.toNat + 1))) = .instr (.ldByte 0 0#8)) ∧
    ({ State.reset with pc := 0xFFE#16 }.placeWord 0x6000#16).pc = 0xFFE#16 ∧
    decode ({ State.reset with pc := 0xFFE#16 }.placeWord 0x6000#16).fetchWord = .instr (.ldByte 0 0#8) := by decide

theorem witness_HaltedBlockHasNoStep :
    { State.reset with status := haltedAt200 .keyIndexRange 0xE59E#16 }.status = .halted ⟨.keyIndexRange, some 0xE59E#16, 0x200#16⟩ :=
  rfl

theorem witness_StepAnswersExactlyWhenActive : ∃ t, step (State.quiet State.reset) = .next t :=
  ⟨after (State.quiet State.reset), rfl⟩

/-- A step that writes no timer, with the pulse and without, and Fx07. -/
theorem witness_PulseComesFirstInEveryStep :
    (at200 0x6000#16).status = .active ∧ (∀ x, ¬ (at200 0x6000#16).runs (.ldDTVx x)) ∧ (∀ x, ¬ (at200 0x6000#16).runs (.ldSTVx x)) ∧
    (at200 0xF507#16).runs (.ldVxDT 5) ∧ (State.given (at200 0xF507#16) true 0#16 0#8).nextInput.decrementTimers = true := by
  have h : (at200 0x6000#16).runs (.ldByte 0 0#8) := runs_of (by decide)
  exact ⟨rfl, fun x e => Instr.noConfusion (runs_unique h e), fun x e => Instr.noConfusion (runs_unique h e), runs_of (by decide), rfl⟩

theorem witness_WaitWithNoKeyStaysWaiting :
    let s := State.quiet { State.reset with wait := .waiting 15 }
    s.status = .active ∧ s.wait = .waiting 15 ∧ s.nextInput.pressedKeys = 0#16 := by decide

theorem witness_WaitResolvesToLowestPressedKey :
    let s := State.given { State.reset with wait := .waiting 15 } false 0x8000#16 0#8
    s.status = .active ∧ s.wait = .waiting 15 ∧ s.nextInput.pressedKeys ≠ 0#16 := by decide

/-- At the first address that cannot be fetched from and at the largest pc. -/
theorem witness_FetchBeyondMemoryHalts :
    let s := { State.reset with pc := 0xFFF#16 }
    let t := { State.reset with pc := 0x10FE#16 }
    s.status = .active ∧ s.wait = .running ∧ 0xFFF ≤ s.pc.toNat ∧ t.status = .active ∧ t.wait = .running ∧ 0xFFF ≤ t.pc.toNat := by
  decide

theorem witness_UnsupportedWordIsReportedNoOp :
    (at200 0x5121#16).fetches ∧ ∀ i, decode (at200 0x5121#16).fetchWord ≠ .instr i :=
  ⟨fetches_of (by decide), not_instr (by decide)⟩

theorem witness_OnlyUnsupportedWordsAreReported : ∃ t, step (State.quiet (at200 0x5121#16)) = .next t ∧
    t.report = some ⟨0x5121#16, 0x200#16⟩ := ⟨after (State.quiet (at200 0x5121#16)), rfl, by decide⟩

/-- An instruction error and a fetch error. -/
theorem witness_FatalErrorsArePrecise :
    (∃ t, step (State.quiet (at200 0x00EE#16)) = .next t ∧ t.status = .halted ⟨.stackUnderflow, some 0x00EE#16, 0x200#16⟩) ∧
    ∃ t, step (State.quiet { State.reset with pc := 0xFFF#16 }) = .next t ∧ t.status = .halted ⟨.fetchOutOfRange, none, 0xFFF#16⟩ :=
  ⟨⟨after (State.quiet (at200 0x00EE#16)), rfl, by decide⟩,
    ⟨after (State.quiet { State.reset with pc := 0xFFF#16 }), rfl, by decide⟩⟩

/-- Each of the seven causes, and each of the three forms of BOUNDS_VIOLATION, at the boundary. -/
theorem witness_EachFatalErrorHasOnlyItsCauses :
    [{ at200 0x2ABC#16 with sp := 16 }, at200 0x00EE#16, { at200 0xD002#16 with i := 0xFFF#16 }, { at200 0xF033#16 with i := 0xFFE#16 },
      { at200 0xF155#16 with i := 0xFFF#16 }, { at200 0xF165#16 with i := 0xFFF#16 }, { State.reset with pc := 0xFFF#16 },
      { at200 0xF029#16 with v := vregs [(0, 0x10#8)] }, { at200 0xE09E#16 with v := vregs [(0, 0x10#8)] },
      { at200 0xE0A1#16 with v := vregs [(0, 0x10#8)] },
      { at200 0xF01E#16 with i := 0xFFFF#16, v := vregs [(0, 1#8)] }].map (fun s => seen State.status (State.quiet s)) =
    [some (haltedAt200 .stackOverflow 0x2ABC#16), some (haltedAt200 .stackUnderflow 0x00EE#16),
      some (haltedAt200 .boundsViolation 0xD002#16), some (haltedAt200 .boundsViolation 0xF033#16),
      some (haltedAt200 .boundsViolation 0xF155#16), some (haltedAt200 .boundsViolation 0xF165#16),
      some (.halted ⟨.fetchOutOfRange, none, 0xFFF#16⟩), some (haltedAt200 .fontIndexRange 0xF029#16),
      some (haltedAt200 .keyIndexRange 0xE09E#16), some (haltedAt200 .keyIndexRange 0xE0A1#16),
      some (haltedAt200 .indexOverflow 0xF01E#16)] := by decide

/-- The empty ROM, the longest that fits and the shortest that does not, and the addresses of the last clause. -/
theorem witness_LoadBuildsMemoryAndRegisters :
    ([] : List Byte).length + 0x200 ≤ 4096 ∧ (List.replicate 3584 (0x12#8 : Byte)).length + 0x200 ≤ 4096 ∧
    4096 < (List.replicate 3585 (0x12#8 : Byte)).length + 0x200 ∧ (80 ≤ 80 ∧ 80 < 0x200) ∧
    (80 ≤ 0xFFF ∧ 0x200 + ([] : List Byte).length ≤ 0xFFF) := by
  simp only [List.length_replicate, List.length_nil]
  decide

theorem witness_LoadClearsStackFrameAndControl : load Config.defaultFont [] = .loaded State.reset := by decide

theorem witness_EveryStepKeepsTheInvariant : (at200 0x6AFF#16).Inv ∧ (State.quiet (at200 0x6AFF#16)).Inv ∧
    ∃ t, step (State.quiet (at200 0x6AFF#16)) = .next t :=
  ⟨inv_of (by decide), inv_of (by decide), after (State.quiet (at200 0x6AFF#16)), rfl⟩

/-- Two states with the same block and different inputs listed after the next. -/
theorem witness_BlockAndInputsDetermineTheStep :
    SameBlock (State.quiet (at200 0x6AFF#16)) ((State.quiet (at200 0x6AFF#16)).present ⟨true, 1#16, 1#8⟩) ∧
    (State.quiet (at200 0x6AFF#16)).nextInput = ((State.quiet (at200 0x6AFF#16)).present ⟨true, 1#16, 1#8⟩).nextInput :=
  ⟨⟨rfl, rfl, rfl, rfl, rfl, rfl, rfl, rfl, rfl, rfl, rfl⟩, rfl⟩

theorem witness_OnlyRndReadsTheRandomByte :
    let s := State.given (at200 0x6AFF#16) true 1#16 0#8
    let t := State.given (at200 0x6AFF#16) true 1#16 0xFF#8
    SameBlock s t ∧ s.nextInput.decrementTimers = t.nextInput.decrementTimers ∧
    s.nextInput.pressedKeys = t.nextInput.pressedKeys ∧ ∀ x kk, ¬ s.runs (.rnd x kk) := by
  have h : (State.given (at200 0x6AFF#16) true 1#16 0#8).runs (.ldByte 10 0xFF#8) := runs_of (by decide)
  exact ⟨⟨rfl, rfl, rfl, rfl, rfl, rfl, rfl, rfl, rfl, rfl, rfl⟩, rfl, rfl, fun x kk e => Instr.noConfusion (runs_unique h e)⟩

theorem witness_OnlyKeySkipsAndWaitsReadTheKeys :
    let s := State.given (at200 0x6AFF#16) true 0#16 0#8
    let t := State.given (at200 0x6AFF#16) true 0xFFFF#16 0#8
    SameBlock s t ∧ s.nextInput.decrementTimers = t.nextInput.decrementTimers ∧ s.nextInput.rand = t.nextInput.rand ∧
    s.wait = .running ∧ (∀ x, ¬ s.runs (.skp x)) ∧ ∀ x, ¬ s.runs (.sknp x) := by
  have h : (State.given (at200 0x6AFF#16) true 0#16 0#8).runs (.ldByte 10 0xFF#8) := runs_of (by decide)
  exact ⟨⟨rfl, rfl, rfl, rfl, rfl, rfl, rfl, rfl, rfl, rfl, rfl⟩, rfl, rfl, rfl, fun x e => Instr.noConfusion (runs_unique h e),
    fun x e => Instr.noConfusion (runs_unique h e)⟩

/-- A step and a state with no step. -/
theorem witness_NoInstructionReadsTheSoundTimer : (∃ t, step (State.quiet (at200 0xF518#16)) = .next t) ∧
    step { State.reset with status := haltedAt200 .stackUnderflow 0x00EE#16 } = .fault .halted :=
  ⟨⟨after (State.quiet (at200 0xF518#16)), rfl⟩, rfl⟩

/-- 6xkk meets the premises of the first four clauses, Fx0A those of the last. -/
theorem witness_EachPartChangesOnlyByItsInstructions :
    let s := State.quiet (at200 0x6AFF#16)
    (∃ t, step s = .next t) ∧ (∀ nnn, ¬ s.runs (.call nnn)) ∧ ¬ s.runs .ret ∧ ¬ s.runs .cls ∧ (∀ x y n, ¬ s.runs (.drw x y n)) ∧
    (∀ x, ¬ s.runs (.ldB x)) ∧ (∀ x, ¬ s.runs (.storeRegs x)) ∧ (∀ nnn, ¬ s.runs (.ldI nnn)) ∧ (∀ x, ¬ s.runs (.addI x)) ∧
    (∀ x, ¬ s.runs (.ldF x)) ∧ ∃ u, step (State.quiet (at200 0xFF0A#16)) = .next u ∧ u.wait = .waiting 15 := by
  have h : (State.quiet (at200 0x6AFF#16)).runs (.ldByte 10 0xFF#8) := runs_of (by decide)
  refine ⟨⟨after (State.quiet (at200 0x6AFF#16)), rfl⟩, ?_, ?_, ?_, ?_, ?_, ?_, ?_, ?_, ?_, after (State.quiet (at200 0xFF0A#16)), rfl, rfl⟩ <;>
    intros <;> exact fun e => Instr.noConfusion (runs_unique h e)

/-- V-I2: Fx1E leaves 0x1000 in I. -/
theorem witness_IndexLeavesMemoryOnlyByAddI :
    seen (fun t => decide (0xFFF < t.i.toNat)) (State.quiet { at200 0xF31E#16 with i := 0xFFF#16, v := vregs [(3, 1#8)] }) = some true := by
  decide

/-- A skip taken, a skip not taken, and an instruction that is no skip. -/
theorem witness_PcAdvancesByTwoOrFour :
    ((at200 0x3000#16).runs (.seByte 0 0#8) ∧ seen State.pc (State.quiet (at200 0x3000#16)) = some 0x204#16) ∧
    ((at200 0x4000#16).runs (.sneByte 0 0#8) ∧ seen State.pc (State.quiet (at200 0x4000#16)) = some 0x202#16) ∧
    ((at200 0x00E0#16).runs .cls ∧ seen State.pc (State.quiet (at200 0x00E0#16)) = some 0x202#16) :=
  ⟨⟨runs_of (by decide), by decide⟩, ⟨runs_of (by decide), by decide⟩, ⟨runs_of (by decide), by decide⟩⟩

/-- V-F4. -/
theorem witness_SelfLoopRepeatsItself : (at200 0x1200#16).atSelfLoop := ⟨0x200#12, runs_of (by decide), by decide⟩

/-- V-F19, on an empty stack and on one of 15 entries. -/
theorem witness_CallThenReturnComesBack :
    let s := State.quiet (State.bytes (at200 0x2204#16) 0x204 [0x00#8, 0xEE#8])
    let r := State.quiet { State.bytes (at200 0x2204#16) 0x204 [0x00#8, 0xEE#8] with sp := 15 }
    (s.runs (.call 0x204#12) ∧ s.sp.val < 16 ∧ step s = .next (after s) ∧ (after s).runs .ret) ∧
    (r.runs (.call 0x204#12) ∧ r.sp.val < 16 ∧ step r = .next (after r) ∧ (after r).runs .ret) :=
  ⟨⟨runs_of (by decide), by decide, rfl, runs_of (by decide)⟩, ⟨runs_of (by decide), by decide, rfl, runs_of (by decide)⟩⟩

/-- Two registers stored right after the instruction, and sixteen. -/
theorem witness_StoreIsSeenByTheNextFetch :
    let s := { at200 0xF155#16 with i := 0x202#16 }
    let t := { at200 0xFF55#16 with i := 0x202#16 }
    (s.mem.wf ∧ s.runs (.storeRegs 1) ∧ 1 ≤ (1 : Reg).val ∧ s.i = s.pc + 2#16 ∧ s.i.toNat + (1 : Reg).val ≤ 0xFFF) ∧
    (t.mem.wf ∧ t.runs (.storeRegs 15) ∧ 1 ≤ (15 : Reg).val ∧ t.i = t.pc + 2#16 ∧ t.i.toNat + (15 : Reg).val ≤ 0xFFF) :=
  ⟨⟨by decide, runs_of (by decide), by decide, by decide, by decide⟩, ⟨by decide, runs_of (by decide), by decide, by decide, by decide⟩⟩

/-- V-K9, with a key listed for the step after. -/
theorem witness_KeyWaitCostsAResolvingStep :
    let s := { at200 0xF50A#16 with pending := [⟨false, 0#16, 0#8⟩, ⟨false, 0x0006#16, 0#8⟩] }
    s.runs (.ldVxK 5) ∧ step s = .next (after s) ∧ (after s).nextInput.pressedKeys ≠ 0#16 :=
  ⟨runs_of (by decide), rfl, by decide⟩

/-- Depths 1, 16 and 0. -/
theorem witness_ReturnPopsOrUnderflows : { State.reset with sp := 1 }.sp.val = (0 : Fin 16).val + 1 ∧
    { State.reset with sp := 16 }.sp.val = (15 : Fin 16).val + 1 ∧ State.reset.sp.val = 0 := by decide

/-- Depths 0, 15 and 16. -/
theorem witness_CallPushesOrOverflows : State.reset.sp.val = (0 : Fin 16).val ∧ { State.reset with sp := 15 }.sp.val = (15 : Fin 16).val ∧
    { State.reset with sp := 16 }.sp.val = 16 ∧ (1 : Fin 16) ≠ 0 := by decide

theorem witness_CompareSkipsAddTwo : (1#4 : BitVec 4) ≠ 0#4 ∧ (15#4 : BitVec 4) ≠ 0#4 := by decide

theorem witness_AddRegistersSetsCarry : (14 : Reg) ≠ Reg.vf := by decide

theorem witness_SubtractionsSetNotBorrow : (0 : Reg) ≠ Reg.vf := by decide

theorem witness_ShiftsActOnVxAndSetVf : (0 : Reg) ≠ Reg.vf ∧ (15 : Reg) = Reg.vf := by decide

theorem witness_RndMasksTheRandomByte : (0#8 : Byte) = 0#8 ∧ (0xFF#8 : Byte) = 0xFF#8 := ⟨rfl, rfl⟩

/-- The sum 0xFFFF and the sum 0x10000. -/
theorem witness_AddIndexIsExactOrHalts :
    let s := { State.reset with i := 0xFF00#16, v := vregs [(3, 0xFF#8)] }
    let t := { State.reset with i := 0xFF01#16, v := vregs [(3, 0xFF#8)] }
    s.i.toNat + (s.reg 3).toNat ≤ 0xFFFF ∧ 0xFFFF < t.i.toNat + (t.reg 3).toNat := by decide

/-- The digits 0x0F and 0x10. -/
theorem witness_LoadFontPointsAtGlyphOrHalts :
    (State.reg { State.reset with v := vregs [(3, 0x0F#8)] } 3).toNat ≤ 0x0F ∧
    0x0F < (State.reg { State.reset with v := vregs [(3, 0x10#8)] } 3).toNat := by decide

/-- The last range that fits and the first that does not. -/
theorem witness_BcdStoresThreeDigitsOrHalts :
    let s := { State.reset with i := 0xFFD#16 }
    let t := { State.reset with i := 0xFFE#16 }
    (s.mem.wf ∧ s.i.toNat + 2 ≤ 0xFFF) ∧ 0xFFF < t.i.toNat + 2 := by decide

theorem witness_StoreRegistersInclusiveOrHalts :
    let s := { State.reset with i := 0xFF0#16 }
    let t := { State.reset with i := 0xFF1#16 }
    (s.mem.wf ∧ s.i.toNat + (15 : Reg).val ≤ 0xFFF ∧ (15 : Reg).val ≤ (15 : Reg).val) ∧ 0xFFF < t.i.toNat + (15 : Reg).val := by decide

theorem witness_LoadRegistersInclusiveOrHalts :
    let s := { State.reset with i := 0xFFF#16 }
    let t := { State.reset with i := 0xFFF#16 }
    (s.i.toNat + (0 : Reg).val ≤ 0xFFF ∧ (0 : Reg).val ≤ (0 : Reg).val ∧ (0 : Reg).val < (1 : Reg).val) ∧
    0xFFF < t.i.toNat + (1 : Reg).val := by decide

/-- No row, the last sprite that fits with its last pixel, a pixel it does not reach, and the first that does not fit. -/
theorem witness_DrawXorsTheSpriteAndSetsCollision :
    let s := { State.reset with i := 0xFF1#16 }
    let t := { State.reset with i := 0xFF2#16 }
    (0 < 16 ∧ 15 < 16) ∧ s.i.toNat + 15 - 1 ≤ 0xFFF ∧
    (14 < 15 ∧ 7 < 8 ∧ (14 : Fin 32).val = ((s.reg 1).toNat + 14) % 32 ∧ (7 : Fin 64).val = ((s.reg 0).toNat + 7) % 64) ∧
    (∀ r < 15, ∀ c < 8, ¬ ((15 : Fin 32).val = ((s.reg 1).toNat + r) % 32 ∧ (0 : Fin 64).val = ((s.reg 0).toNat + c) % 64)) ∧
    (1 ≤ 15 ∧ 0xFFF < t.i.toNat + 15 - 1) := by decide

/-- V-DR9: D011 with the coordinates 0. -/
theorem witness_DrawingTwiceRestoresTheFrame : 1 < 16 ∧ State.reset.i.toNat + 1 - 1 ≤ 0xFFF ∧
    exec (.drw 0 1 1) State.reset = .next (State.drawSprite State.reset 0#8 0#8 1) ∧
    State.reg (State.drawSprite State.reset 0#8 0#8 1) 0 = State.reset.reg 0 ∧
    State.reg (State.drawSprite State.reset 0#8 0#8 1) 1 = State.reset.reg 1 :=
  ⟨by decide, by decide, rfl, by decide, by decide⟩

theorem witness_KeySkipsTestTheMaskOrHalt :
    (State.reg { State.reset with v := vregs [(5, 0x0F#8)] } 5).toNat ≤ 0x0F ∧
    0x0F < (State.reg { State.reset with v := vregs [(5, 0x10#8)] } 5).toNat := by decide

theorem witness_TimerTransfersComeAfterThePulse : (at200 0xF507#16).runs (.ldVxDT 5) ∧ (at200 0xF515#16).runs (.ldDTVx 5) ∧
    (at200 0xF518#16).runs (.ldSTVx 5) := ⟨runs_of (by decide), runs_of (by decide), runs_of (by decide)⟩

end Sys2Proof.Tests
end

section
/-! The statements about memory (20_memory.md). -/

namespace Sys2Proof.Machine

/-- Settles O6: `joinBytes_toNat` on the two bytes `Fetch(pc)` reads, whatever they are and wherever pc stands. -/
theorem fetchIsBigEndian : Obligations.FetchIsBigEndian := by
  intro s
  rw [State.fetchWord]
  exact joinBytes_toNat (s.mem.read s.pc.toNat) (s.mem.read (s.pc.toNat + 1))

end Sys2Proof.Machine
end

section
/-! The statements about the encoding (30_encoding.md). -/

namespace Sys2Proof

/-! ## What the decoder answers, nibble by nibble (30_encoding.md R75 to R79) -/

section
variable {w : Word}

theorem decode_of_nibble_0 (h : opField w = 0x0#4) : decode w =
    if w = 0x00E0#16 then .instr .cls else if w = 0x00EE#16 then .instr .ret else .unsupported w := by
  simp [decode, h]

theorem decode_of_nibble_5 (h : opField w = 0x5#4) : decode w =
    if nField w = 0#4 then .instr (.seReg (xField w) (yField w)) else .unsupported w := by
  simp [decode, h]

theorem decode_of_nibble_8 (h : opField w = 0x8#4) : decode w = decode8 w := by
  simp [decode, h]

theorem decode_of_nibble_9 (h : opField w = 0x9#4) : decode w =
    if nField w = 0#4 then .instr (.sneReg (xField w) (yField w)) else .unsupported w := by
  simp [decode, h]

theorem decode_of_nibble_E (h : opField w = 0xE#4) : decode w = decodeE w := by
  simp [decode, h]

theorem decode_of_nibble_F (h : opField w = 0xF#4) : decode w = decodeF w := by
  simp [decode, h]

/-- The ten nibbles without a second dispatch (30_encoding.md R74). -/
theorem decode_of_other_nibble (h : opField w ∈ [0x1#4, 0x2#4, 0x3#4, 0x4#4, 0x6#4, 0x7#4, 0xA#4, 0xB#4, 0xC#4, 0xD#4]) :
    ∃ i, decode w = .instr i := by
  simp only [List.mem_cons, List.not_mem_nil, or_false] at h
  rcases h with h | h | h | h | h | h | h | h | h | h <;> simp [decode, h]

/-- The nibbles with a second dispatch, and the ten others. -/
theorem nibble_cases (o : BitVec 4) : o = 0x0#4 ∨ o = 0x5#4 ∨ o = 0x8#4 ∨ o = 0x9#4 ∨ o = 0xE#4 ∨ o = 0xF#4 ∨
    o ∈ [0x1#4, 0x2#4, 0x3#4, 0x4#4, 0x6#4, 0x7#4, 0xA#4, 0xB#4, 0xC#4, 0xD#4] := by
  revert o
  decide

/-! ## Which words are unsupported -/

/-- A dispatch whose branch is an instruction leaves a word unsupported only past that branch. -/
theorem ite_instr_eq_unsupported_iff {c : Prop} [Decidable c] {i : Instr} {d : Decoded} {u : Word} :
    (if c then .instr i else d) = .unsupported u ↔ ¬ c ∧ d = .unsupported u := by
  split <;> simp [*]

theorem decode8_eq_unsupported_iff :
    decode8 w = .unsupported w ↔ nField w ∈ [0x8#4, 0x9#4, 0xA#4, 0xB#4, 0xC#4, 0xD#4, 0xF#4] := by
  simp only [decode8, ite_instr_eq_unsupported_iff, and_true]
  generalize nField w = n
  revert n
  decide

theorem decodeE_eq_unsupported_iff : decodeE w = .unsupported w ↔ kkField w ∉ [0x9E#8, 0xA1#8] := by
  simp [decodeE, ite_instr_eq_unsupported_iff]

theorem decodeF_eq_unsupported_iff : decodeF w = .unsupported w ↔
    kkField w ∉ [0x07#8, 0x0A#8, 0x15#8, 0x18#8, 0x1E#8, 0x29#8, 0x33#8, 0x55#8, 0x65#8] := by
  simp [decodeF, ite_instr_eq_unsupported_iff]

theorem decode_eq_unsupported_iff : decode w = .unsupported w ↔
    (opField w = 0x0#4 ∧ w ≠ 0x00E0#16 ∧ w ≠ 0x00EE#16) ∨
    ((opField w = 0x5#4 ∨ opField w = 0x9#4) ∧ nField w ≠ 0#4) ∨
    (opField w = 0x8#4 ∧ nField w ∈ [0x8#4, 0x9#4, 0xA#4, 0xB#4, 0xC#4, 0xD#4, 0xF#4]) ∨
    (opField w = 0xE#4 ∧ kkField w ∉ [0x9E#8, 0xA1#8]) ∨
    (opField w = 0xF#4 ∧ kkField w ∉ [0x07#8, 0x0A#8, 0x15#8, 0x18#8, 0x1E#8, 0x29#8, 0x33#8, 0x55#8, 0x65#8]) := by
  obtain h | h | h | h | h | h | h := nibble_cases (opField w)
  · simp [decode_of_nibble_0 h, ite_instr_eq_unsupported_iff, h]
  · simp [decode_of_nibble_5 h, h]
  · rw [decode_of_nibble_8 h, decode8_eq_unsupported_iff]
    simp [h]
  · simp [decode_of_nibble_9 h, h]
  · rw [decode_of_nibble_E h, decodeE_eq_unsupported_iff]
    simp [h]
  · rw [decode_of_nibble_F h, decodeF_eq_unsupported_iff]
    simp [h]
  · obtain ⟨i, hi⟩ := decode_of_other_nibble h
    rw [hi]
    generalize opField w = o at h
    revert o
    simp

end

/-- Settles O3: `decode_eq_unsupported_iff`, and the second dispatch of each of the four nibbles. -/
theorem nibblesDecodeOnlyTheirTemplates : Obligations.NibblesDecodeOnlyTheirTemplates := by
  refine ⟨fun w => decode_eq_unsupported_iff, fun w hn => ⟨fun h => ?_, fun h => ?_⟩, fun w h => ?_, fun w h => ?_⟩
  · rw [decode_of_nibble_5 h, if_pos hn]
  · rw [decode_of_nibble_9 h, if_pos hn]
  · rw [decode_of_nibble_E h]
    constructor <;> intro hk <;> simp [decodeE, hk]
  · rw [decode_of_nibble_F h]
    refine ⟨?_, ?_, ?_, ?_, ?_, ?_, ?_, ?_, ?_⟩ <;> intro hk <;> simp [decodeF, hk]

/-! ## Decoding loses nothing of the word -/

section
variable {w : Word} {op : BitVec 4}

theorem encNNN_of_fields (ho : opField w = op) : encNNN op (nnnField w) = w := by
  rw [← ho, encNNN_fields]

theorem encXKK_of_fields {kk : Byte} (ho : opField w = op) (hk : kkField w = kk) : encXKK op (xField w) kk = w := by
  rw [← ho, ← hk, encXKK_fields]

theorem encXYN_of_fields {n : BitVec 4} (ho : opField w = op) (hn : nField w = n) :
    encXYN op (xField w) (yField w) n = w := by
  rw [← ho, ← hn, encXYN_fields]

/-- The word a decoding stands for. -/
def Decoded.word : Decoded → Word
  | .instr i => encode i
  | .unsupported u => u

theorem Decoded.word_ite {c : Prop} [Decidable c] {a b : Decoded} (ha : c → a.word = w) (hb : ¬ c → b.word = w) :
    (if c then a else b).word = w := by
  split
  · exact ha ‹_›
  · exact hb ‹_›

open Decoded (word_ite)

theorem word_decode8 (h : opField w = 0x8#4) : (decode8 w).word = w := by
  unfold decode8
  iterate 9 refine word_ite (encXYN_of_fields h) fun _ => ?_
  rfl

theorem word_decodeE (h : opField w = 0xE#4) : (decodeE w).word = w := by
  unfold decodeE
  iterate 2 refine word_ite (encXKK_of_fields h) fun _ => ?_
  rfl

theorem word_decodeF (h : opField w = 0xF#4) : (decodeF w).word = w := by
  unfold decodeF
  iterate 9 refine word_ite (encXKK_of_fields h) fun _ => ?_
  rfl

theorem word_decode (w : Word) : (decode w).word = w := by
  unfold decode
  refine word_ite (fun _ => word_ite Eq.symm fun _ => word_ite Eq.symm fun _ => rfl) fun n0 => ?_
  refine word_ite encNNN_of_fields fun n1 => word_ite encNNN_of_fields fun n2 => ?_
  refine word_ite (encXKK_of_fields · rfl) fun n3 => word_ite (encXKK_of_fields · rfl) fun n4 => ?_
  refine word_ite (fun h => word_ite (encXYN_of_fields h) fun _ => rfl) fun n5 => ?_
  refine word_ite (encXKK_of_fields · rfl) fun n6 => word_ite (encXKK_of_fields · rfl) fun n7 => ?_
  refine word_ite word_decode8 fun n8 => ?_
  refine word_ite (fun h => word_ite (encXYN_of_fields h) fun _ => rfl) fun n9 => ?_
  refine word_ite encNNN_of_fields fun nA => word_ite encNNN_of_fields fun nB => ?_
  refine word_ite (encXKK_of_fields · rfl) fun nC => ?_
  refine word_ite (encXYN_of_fields · (by simp)) fun nD => ?_
  exact word_ite word_decodeE fun nE => word_decodeF (nibble_eq_F n0 n1 n2 n3 n4 n5 n6 n7 n8 n9 nA nB nC nD nE)

theorem encode_of_decode {i : Instr} (h : decode w = .instr i) : encode i = w := by
  have e := word_decode w
  rwa [h] at e

end

/-! ## The rows of the opcode map (30_encoding.md R74) -/

theorem row_mem_opcodeMap (i : Instr) : i.row ∈ opcodeMap := by
  cases i <;> simp [Instr.row, opcodeMap, opRowsLow, opRows8, opRowsHigh, opRowsF]

theorem encode_matches_row (i : Instr) : i.row.matches (encode i) := by
  cases i
  case cls | ret => decide
  case jp | call | ldI | jpV0 => exact (and_F000 _).trans (by rw [encode, opField_encNNN]; rfl)
  case seByte | sneByte | ldByte | addByte | rnd => exact (and_F000 _).trans (by rw [encode, opField_encXKK]; rfl)
  case drw => exact (and_F000 _).trans (by rw [encode, opField_encXYN]; rfl)
  case seReg | sneReg | ldReg | or | and | xor | addReg | sub | shr | subn | shl =>
    exact (and_F00F _).trans (by rw [encode, opField_encXYN, nField_encXYN]; rfl)
  all_goals exact (and_F0FF _).trans (by rw [encode, opField_encXKK, kkField_encXKK]; rfl)

section
variable {r r' : OpRow} {w m : Word}

/-- A word agrees with its row's value on every part of the row's mask. -/
theorem and_eq_of_matches (h : r.matches w) (hm : r.mask &&& m = m) : w &&& m = r.value &&& m := by
  rw [← h, BitVec.and_assoc, hm]

theorem opField_eq_of_matches (h : r.matches w) (hm : r.mask &&& 0xF000#16 = 0xF000#16) : opField w = opField r.value := by
  simpa [and_F000] using congrArg opField (and_eq_of_matches h hm)

theorem nField_eq_of_matches (h : r.matches w) (hm : r.mask &&& 0xF00F#16 = 0xF00F#16) : nField w = nField r.value := by
  simpa [and_F00F] using congrArg nField (and_eq_of_matches h hm)

theorem kkField_eq_of_matches (h : r.matches w) (hm : r.mask &&& 0xF0FF#16 = 0xF0FF#16) : kkField w = kkField r.value := by
  simpa [and_F0FF] using congrArg kkField (and_eq_of_matches h hm)

/-- The values of two rows that share a word agree where both masks look. -/
theorem values_agree_of_matches (h : r.matches w) (h' : r'.matches w) : r.value &&& r'.mask = r'.value &&& r.mask := by
  rw [← h, ← h', BitVec.and_assoc, BitVec.and_assoc, BitVec.and_comm r.mask]

theorem rows_with_agreeing_values_eq :
    ∀ r ∈ opcodeMap, ∀ r' ∈ opcodeMap, r.value &&& r'.mask = r'.value &&& r.mask → r = r' := by
  decide

theorem row_unique (hr : r ∈ opcodeMap) (hr' : r' ∈ opcodeMap) (h : r.matches w) (h' : r'.matches w) : r = r' :=
  rows_with_agreeing_values_eq r hr r' hr' (values_agree_of_matches h h')

/-! What the rows are, nibble by nibble: finite facts about the 34 rows. -/

theorem row_mask_nibble : ∀ r ∈ opcodeMap, r.mask &&& 0xF000#16 = 0xF000#16 := by
  decide

theorem row_of_nibble_0 : ∀ r ∈ opcodeMap, opField r.value = 0x0#4 →
    r.mask = 0xFFFF#16 ∧ (r.value = 0x00E0#16 ∨ r.value = 0x00EE#16) := by
  decide

theorem row_of_nibble_5_9 : ∀ r ∈ opcodeMap, opField r.value = 0x5#4 ∨ opField r.value = 0x9#4 →
    r.mask = 0xF00F#16 ∧ nField r.value = 0#4 := by
  decide

theorem row_of_nibble_8 : ∀ r ∈ opcodeMap, opField r.value = 0x8#4 →
    r.mask = 0xF00F#16 ∧ nField r.value ∉ [0x8#4, 0x9#4, 0xA#4, 0xB#4, 0xC#4, 0xD#4, 0xF#4] := by
  decide

theorem row_of_nibble_E : ∀ r ∈ opcodeMap, opField r.value = 0xE#4 →
    r.mask = 0xF0FF#16 ∧ kkField r.value ∈ [0x9E#8, 0xA1#8] := by
  decide

theorem row_of_nibble_F : ∀ r ∈ opcodeMap, opField r.value = 0xF#4 →
    r.mask = 0xF0FF#16 ∧
      kkField r.value ∈ [0x07#8, 0x0A#8, 0x15#8, 0x18#8, 0x1E#8, 0x29#8, 0x33#8, 0x55#8, 0x65#8] := by
  decide

/-- A word of a row has none of the forms of the unsupported words (30_encoding.md R75). -/
theorem decode_ne_unsupported_of_matches (hr : r ∈ opcodeMap) (h : r.matches w) : decode w ≠ .unsupported w := by
  have hop : opField w = opField r.value := opField_eq_of_matches h (row_mask_nibble r hr)
  rw [Ne, decode_eq_unsupported_iff, hop]
  rintro (⟨ho, hE0, hEE⟩ | ⟨ho, hn⟩ | ⟨ho, hn⟩ | ⟨ho, hk⟩ | ⟨ho, hk⟩)
  · obtain ⟨hm, hv⟩ := row_of_nibble_0 r hr ho
    have hw : w = r.value := by
      rw [← h, hm]
      exact BitVec.and_allOnes.symm
    exact hv.elim (hE0 <| hw.trans ·) (hEE <| hw.trans ·)
  · obtain ⟨hm, hv⟩ := row_of_nibble_5_9 r hr ho
    exact hn ((nField_eq_of_matches h (by rw [hm]; rfl)).trans hv)
  · obtain ⟨hm, hv⟩ := row_of_nibble_8 r hr ho
    exact hv (nField_eq_of_matches h (by rw [hm]; rfl) ▸ hn)
  · obtain ⟨hm, hv⟩ := row_of_nibble_E r hr ho
    exact hk (kkField_eq_of_matches h (by rw [hm]; rfl) ▸ hv)
  · obtain ⟨hm, hv⟩ := row_of_nibble_F r hr ho
    exact hk (kkField_eq_of_matches h (by rw [hm]; rfl) ▸ hv)

theorem matches_row_of_decode {i : Instr} (h : decode w = .instr i) : i.row.matches w :=
  encode_of_decode h ▸ encode_matches_row i

/-- A word of a row decodes, and to that row: its instruction's row holds the word too, and no two rows share one. -/
theorem decode_of_matches (hr : r ∈ opcodeMap) (h : r.matches w) : ∃ i, decode w = .instr i ∧ i.row = r := by
  cases hd : decode w with
  | instr i => exact ⟨i, rfl, row_unique (row_mem_opcodeMap i) hr (matches_row_of_decode hd) h⟩
  | unsupported u =>
    obtain rfl := decode_unsupported hd
    exact absurd hd (decode_ne_unsupported_of_matches hr h)

end

/-- Settles O2: `row_unique`, and that decoding and matching a row are the same, each way by one lemma. -/
theorem opcodeMapDecidesDecoding : Obligations.OpcodeMapDecidesDecoding :=
  ⟨rfl, fun _ _ hr _ hr' => row_unique hr hr', fun _ i h => ⟨row_mem_opcodeMap i, matches_row_of_decode h⟩,
    fun _ _ hr => decode_of_matches hr⟩

end Sys2Proof
end

section
/-! The statements about the step cycle (40_step_cycle.md). -/

namespace Sys2Proof.Machine

/-! ## What a step does after phase (a) (40_step_cycle.md R92 to R96) -/

/-- An ACTIVE block always steps: waits, fetch errors, unsupported words and all 34 instructions included. -/
theorem step_next_of_active {s : State} (h : s.status = .active) : ∃ t, step s = .next t := by
  rcases state_cases s with ⟨e, he⟩ | ⟨ha, r, hr⟩ | ⟨ha, hr, hf⟩ | ⟨w, hw⟩ | ⟨i, hi⟩
  · simp [h] at he
  · exact ⟨_, step_of_waiting ha hr⟩
  · exact ⟨_, step_of_noFetch ha hr hf⟩
  · exact ⟨_, step_of_runsUnsupported hw⟩
  · rw [step_of_runs hi]
    exact exec_next i _

theorem begin_timersPulsed (s : State) : TimersPulsed s s.begin := ⟨begin_dt_toNat s, begin_st_toNat s⟩

/-- An unsupported word changes pc and the report alone (R96). -/
theorem advance_setReport_frame (s : State) (r : Option Report) : Frame [] [.pc, .report] s (s.advance.setReport r) :=
  (jump_frame s _).trans (setReport_frame _ r)

/-- The rest of the step leaves a part as phase (a) left it, unless it is one of the four that the step cycle itself
writes or the executed instruction writes it. -/
theorem part_kept_after_begin {s t : State} {p : Part} (h : step s = .next t)
    (hc : p ∉ [Part.pc, .wait, .status, .report]) (hi : ∀ i, s.runs i → p ∉ writtenParts i) : p.Kept s.begin t := by
  simp only [List.mem_cons, List.not_mem_nil, or_false, not_or] at hc
  obtain ⟨hpc, hwait, hstatus, hreport⟩ := hc
  rcases step_cases h with ⟨_, r, _, rfl⟩ | ⟨_, _, _, rfl⟩ | ⟨w, _, rfl⟩ | ⟨i, hr, he⟩
  · exact (resolveWait_frame s.begin r).2 p (by simpa using hwait)
  · exact (halt_frame s.begin _ _ _).2 p (by simpa using hstatus)
  · exact (advance_setReport_frame s.begin _).2 p (by simp [hpc, hreport])
  · have hadv : p.Kept s.begin s.begin.advance := (jump_frame s.begin _).2 p (by simpa using hpc)
    exact hadv.trans ((exec_frame he).2 p (hi i hr))

/-! ## Which instructions write a timer (45_timers_keys.md R184, R185) -/

theorem delay_mem_writtenParts_iff (i : Instr) : Part.delay ∈ writtenParts i ↔ ∃ x, i = .ldDTVx x := by
  cases i <;> simp [writtenParts]

theorem sound_mem_writtenParts_iff (i : Instr) : Part.sound ∈ writtenParts i ↔ ∃ x, i = .ldSTVx x := by
  cases i <;> simp [writtenParts]

theorem step_dt_toNat {s t : State} (h : step s = .next t) (hn : ∀ x, ¬ s.runs (.ldDTVx x)) :
    t.dt.toNat = pulsed s s.dt := by
  have hdt : t.dt = s.begin.dt := part_kept_after_begin (p := .delay) h (by decide) fun i hr hm => by
    obtain ⟨x, rfl⟩ := (delay_mem_writtenParts_iff i).1 hm
    exact hn x hr
  rw [hdt, begin_dt_toNat]

theorem step_st_toNat {s t : State} (h : step s = .next t) (hn : ∀ x, ¬ s.runs (.ldSTVx x)) :
    t.st.toNat = pulsed s s.st := by
  have hst : t.st = s.begin.st := part_kept_after_begin (p := .sound) h (by decide) fun i hr hm => by
    obtain ⟨x, rfl⟩ := (sound_mem_writtenParts_iff i).1 hm
    exact hn x hr
  rw [hst, begin_st_toNat]

/-- Fx07 leaves in Vx the delay timer as phase (a) left it (45_timers_keys.md R182). -/
theorem step_of_ldVxDT {s : State} {x : Reg} (h : s.runs (.ldVxDT x)) :
    step s = .next (s.begin.advance.setReg x s.begin.dt) := step_of_runs h

/-- Settles O10: the rest of the step keeps a timer that its instruction does not write (`part_kept_after_begin`), and
only Fx15 and Fx18 write one. -/
theorem pulseComesFirstInEveryStep : Obligations.PulseComesFirstInEveryStep := by
  intro s ha
  obtain ⟨t, ht⟩ := step_next_of_active ha
  refine ⟨ha, begin_timersPulsed s, t, ht, step_dt_toNat ht, step_st_toNat ht, fun x hx => ?_⟩
  obtain rfl : s.begin.advance.setReg x s.begin.dt = t := Host.Outcome.next.inj ((step_of_ldVxDT hx).symm.trans ht)
  rw [State.reg_setReg_self, begin_dt_toNat]

/-! ## Unsupported words (40_step_cycle.md R96) -/

theorem runsUnsupported_fetchWord {s : State} (hf : s.fetches) (hd : ∀ i, decode s.fetchWord ≠ .instr i) :
    s.runsUnsupported s.fetchWord := by
  cases h : decode s.fetchWord with
  | instr i => exact absurd h (hd i)
  | unsupported w =>
    obtain rfl := decode_unsupported h
    exact ⟨hf, h⟩

/-- Settles O14: the step is `begin`, then the advance and the report of the fetched word. -/
theorem unsupportedWordIsReportedNoOp : Obligations.UnsupportedWordIsReportedNoOp := by
  intro s hf hd
  have hstep := step_of_runsUnsupported (runsUnsupported_fetchWord hf hd)
  have hframe := (begin_frame s).trans (advance_setReport_frame s.begin (some ⟨s.fetchWord, s.pc⟩))
  exact ⟨_, hstep, rfl, rfl, begin_timersPulsed s, hframe.mono (by simp) (by decide)⟩

end Sys2Proof.Machine
end

section
/-! The statements about control flow (41_control_flow.md). -/

namespace Sys2Proof.Machine

/-! ## Compare skips (41_control_flow.md R113 to R116) -/

theorem skipIf_frame (s : State) (c : Bool) : Frame [] [.pc] s (s.skipIf c) := jump_frame s _

theorem skipIf_beq_pc (s : State) (a b : Byte) : (s.skipIf (a == b)).pc = if a = b then s.pc + 2#16 else s.pc := by
  by_cases h : a = b <;> simp [h]

theorem skipIf_bne_pc (s : State) (a b : Byte) : (s.skipIf (a != b)).pc = if a = b then s.pc else s.pc + 2#16 := by
  by_cases h : a = b <;> simp [h]

theorem decode_encXYN_5_unsupported (x y : Reg) {n : BitVec 4} (hn : n ≠ 0#4) :
    decode (encXYN 0x5#4 x y n) = .unsupported (encXYN 0x5#4 x y n) := by
  rw [decode_of_nibble_5 (opField_encXYN _ x y n), nField_encXYN, if_neg hn]

theorem decode_encXYN_9_unsupported (x y : Reg) {n : BitVec 4} (hn : n ≠ 0#4) :
    decode (encXYN 0x9#4 x y n) = .unsupported (encXYN 0x9#4 x y n) := by
  rw [decode_of_nibble_9 (opField_encXYN _ x y n), nField_encXYN, if_neg hn]

/-- Settles O37: each skip's next state is `skipIf` of its comparison, which moves pc alone; decoding is the round trip of
the four encodings, and nibbles 5 and 9 refuse a low nibble other than 0. -/
theorem compareSkipsAddTwo : Obligations.CompareSkipsAddTwo := by
  intro x y kk s
  refine ⟨Laws.DecodeEncode.seByte x kk rfl, Laws.DecodeEncode.sneByte x kk rfl, Laws.DecodeEncode.seReg x y rfl,
    Laws.DecodeEncode.sneReg x y rfl, fun n hn => ⟨decode_encXYN_5_unsupported x y hn, decode_encXYN_9_unsupported x y hn⟩,
    ?seByte, ?sneByte, ?seReg, ?sneReg⟩
  case seByte => exact ⟨_, rfl, skipIf_beq_pc s (s.reg x) kk, skipIf_frame s _⟩
  case sneByte => exact ⟨_, rfl, skipIf_bne_pc s (s.reg x) kk, skipIf_frame s _⟩
  case seReg => exact ⟨_, rfl, skipIf_beq_pc s (s.reg x) (s.reg y), skipIf_frame s _⟩
  case sneReg => exact ⟨_, rfl, skipIf_bne_pc s (s.reg x) (s.reg y), skipIf_frame s _⟩

end Sys2Proof.Machine
end

section
/-! The statements about arithmetic and logic (42_alu.md). -/

namespace Sys2Proof.Machine

/-! ## Instructions that write Vx and no flag (42_alu.md R131 to R136, R142) -/

theorem reg_setReg_add_toNat (s : State) (x : Reg) (a b : Byte) :
    ((s.setReg x (a + b)).reg x).toNat = (a.toNat + b.toNat) % 256 := by
  rw [State.reg_setReg_self, BitVec.toNat_add]

theorem reg_setReg_or_getLsbD (s : State) (x : Reg) (a b : Byte) (k : Nat) :
    ((s.setReg x (a ||| b)).reg x).getLsbD k = (a.getLsbD k || b.getLsbD k) := by
  rw [State.reg_setReg_self, BitVec.getLsbD_or]

theorem reg_setReg_and_getLsbD (s : State) (x : Reg) (a b : Byte) (k : Nat) :
    ((s.setReg x (a &&& b)).reg x).getLsbD k = (a.getLsbD k && b.getLsbD k) := by
  rw [State.reg_setReg_self, BitVec.getLsbD_and]

theorem reg_setReg_xor_getLsbD (s : State) (x : Reg) (a b : Byte) (k : Nat) :
    ((s.setReg x (a ^^^ b)).reg x).getLsbD k = (a.getLsbD k ^^ b.getLsbD k) := by
  rw [State.reg_setReg_self, BitVec.getLsbD_xor]

/-- Settles O38: both next states are `setReg` of x, with kk or the 8-bit sum; decoding is the round trip of the two
encodings. -/
theorem immediateLoadAndAdd : Obligations.ImmediateLoadAndAdd := by
  intro x kk s
  refine ⟨Laws.DecodeEncode.ldByte x kk rfl, Laws.DecodeEncode.addByte x kk rfl, ?ldByte, ?addByte⟩
  case ldByte => exact ⟨_, rfl, s.reg_setReg_self x kk, setReg_frame s x _⟩
  case addByte => exact ⟨_, rfl, reg_setReg_add_toNat s x (s.reg x) kk, setReg_frame s x _⟩

/-- Settles O39: each next state is `setReg` of x with Vy or the bitwise operation of Vx and Vy; decoding is the round trip
of the four encodings. -/
theorem registerCopyAndLogic : Obligations.RegisterCopyAndLogic := by
  intro x y s
  refine ⟨Laws.DecodeEncode.ldReg x y rfl, Laws.DecodeEncode.or x y rfl, Laws.DecodeEncode.and x y rfl,
    Laws.DecodeEncode.xor x y rfl, ?ldReg, ?or, ?and, ?xor⟩
  case ldReg => exact ⟨_, rfl, s.reg_setReg_self x (s.reg y), setReg_frame s x _⟩
  case or => exact ⟨_, rfl, reg_setReg_or_getLsbD s x (s.reg x) (s.reg y), setReg_frame s x _⟩
  case and => exact ⟨_, rfl, reg_setReg_and_getLsbD s x (s.reg x) (s.reg y), setReg_frame s x _⟩
  case xor => exact ⟨_, rfl, reg_setReg_xor_getLsbD s x (s.reg x) (s.reg y), setReg_frame s x _⟩

/-- Settles O43: the next state is `setReg` of x with the random byte masked by kk, and the masks 0 and 0xFF are the zero
and the unit of the bitwise AND. -/
theorem rndMasksTheRandomByte : Obligations.RndMasksTheRandomByte := by
  intro x kk s
  refine ⟨Laws.DecodeEncode.rnd x kk rfl, s.setReg x (s.input.rand &&& kk), rfl,
    reg_setReg_and_getLsbD s x s.input.rand kk, ?maskZero, ?maskOnes, setReg_frame s x _⟩
  case maskZero =>
    rintro rfl
    rw [State.reg_setReg_self, BitVec.and_zero]
  case maskOnes =>
    rintro rfl
    exact (s.reg_setReg_self x _).trans BitVec.and_allOnes

end Sys2Proof.Machine
end

section
/-! The statements about the index register and memory transfers (43_index_memory.md). -/

namespace Sys2Proof.Machine

/-! ## The load of I (43_index_memory.md R150) -/

/-- Settles O44: the next state is `setI` of the operand, which writes I alone; the operand widened to 16 bits keeps its
value, and decoding is the round trip of the encoding. -/
theorem loadIndexIsZeroExtended : Obligations.LoadIndexIsZeroExtended := by
  intro nnn s
  exact ⟨Laws.DecodeEncode.ldI nnn rfl, s.setI (addrOperand nnn), rfl, addrOperand_toNat nnn, setI_frame s _⟩

end Sys2Proof.Machine
end

section
/-! The statements about the display (44_display.md). -/

namespace Sys2Proof.Machine

/-! ## The clear of the display (44_display.md R170) -/

/-- Settles O50: the next state holds the clear framebuffer and the rest of the state before it, whose frame names the
display alone; decoding is the round trip of the encoding. -/
theorem clearClearsEveryPixel : Obligations.ClearClearsEveryPixel := by
  refine ⟨Laws.DecodeEncode.cls rfl, fun s => ?_⟩
  exact ⟨{ s with fb := clearFrame }, rfl, pixel_clearFrame, clearFrame_frame s⟩

end Sys2Proof.Machine
end

section
/-! The statements about the timers and the keys (45_timers_keys.md). -/

namespace Sys2Proof.Machine

/-! ## The timer transfers over a whole step (45_timers_keys.md R182, R184, R185) -/

/-- Fx15 writes DT after phase (a), with Vx as the state before the step holds it (R184). -/
theorem step_of_ldDTVx {s : State} {x : Reg} (h : s.runs (.ldDTVx x)) :
    step s = .next (s.begin.advance.setDT (s.reg x)) := step_of_runs h

/-- Fx18 writes ST after phase (a), with Vx as the state before the step holds it (R185). -/
theorem step_of_ldSTVx {s : State} {x : Reg} (h : s.runs (.ldSTVx x)) :
    step s = .next (s.begin.advance.setST (s.reg x)) := step_of_runs h

theorem begin_advance_setReg_dt_toNat (s : State) (x : Reg) :
    ((s.begin.advance.setReg x s.begin.dt).reg x).toNat = pulsed s s.dt := by
  rw [State.reg_setReg_self, begin_dt_toNat]

/-- Settles O54: each next state is one write, `setReg`, `setDT` or `setST`, and over a whole step that write acts on the
state that phase (a) and the advance left; decoding is the round trip of the three encodings. -/
theorem timerTransfersComeAfterThePulse : Obligations.TimerTransfersComeAfterThePulse := by
  intro x s
  refine ⟨Laws.DecodeEncode.ldVxDT x rfl, Laws.DecodeEncode.ldDTVx x rfl, Laws.DecodeEncode.ldSTVx x rfl,
    ?ldVxDT, ?ldDTVx, ?ldSTVx, fun h => ?stepVxDT, fun h => ?stepDTVx, fun h => ?stepSTVx⟩
  case ldVxDT => exact ⟨_, rfl, s.reg_setReg_self x s.dt, setReg_frame s x _⟩
  case ldDTVx => exact ⟨_, rfl, s.setDT_dt (s.reg x), setDT_frame s _⟩
  case ldSTVx => exact ⟨_, rfl, s.setST_st (s.reg x), setST_frame s _⟩
  case stepVxDT => exact ⟨_, step_of_ldVxDT h, begin_advance_setReg_dt_toNat s x⟩
  case stepDTVx => exact ⟨_, step_of_ldDTVx h, State.setDT_dt _ (s.reg x)⟩
  case stepSTVx => exact ⟨_, step_of_ldSTVx h, State.setST_st _ (s.reg x)⟩

end Sys2Proof.Machine
end

section
/-! The statements about Load and reset (70_reset_and_hazards.md). -/

namespace Sys2Proof.Machine

/-! ## Memory with the font alone (70_reset_and_hazards.md R231) -/

/-- Memory once Load has copied the font in and nothing else. -/
def fontMemory (font : Config.Font) : Memory := (⟨[]⟩ : Memory).writeBytes Config.fontBase font.toList

theorem loadMemory_eq (font : Config.Font) (rom : List Byte) :
    loadMemory font rom = (fontMemory font).writeBytes Config.progBase rom := rfl

theorem emptyMemory_wf : (⟨[]⟩ : Memory).wf := by decide

theorem fontMemory_wf (font : Config.Font) : (fontMemory font).wf := Memory.writeBytes_wf _ emptyMemory_wf _ _

/-- The font fills all the addresses at which unwritten memory reads as other than 0. -/
theorem resetByte_of_ge {a : Nat} (h : Config.fontSize ≤ a) : resetByte a = 0#8 := dif_neg (Nat.not_lt.2 h)

theorem font_fits (font : Config.Font) : Config.fontBase + font.toList.length ≤ Config.memSize := by
  rw [Vector.length_toList]
  decide

theorem read_fontMemory_font (font : Config.Font) (k : Fin 80) : (fontMemory font).read k.val = font[k.val] := by
  have h := Memory.read_writeBytes_inside _ emptyMemory_wf Config.fontBase font.toList k.val (font_fits font) (by simp)
  rwa [Nat.zero_add, Vector.getElem_toList] at h

theorem read_fontMemory_above (font : Config.Font) {a : Nat} (h : Config.fontSize ≤ a) :
    (fontMemory font).read a = 0#8 := by
  have hout := Memory.read_writeBytes_outside _ emptyMemory_wf Config.fontBase font.toList a (font_fits font)
    (.inr (by simpa using h))
  exact hout.trans (resetByte_of_ge h)

/-! ## Memory after Load (70_reset_and_hazards.md R231) -/

section
variable (font : Config.Font) {rom : List Byte} (hfit : Config.progBase + rom.length ≤ Config.memSize)
include hfit

theorem read_loadMemory_rom (j : Fin rom.length) : (loadMemory font rom).read (Config.progBase + j.val) = rom[j.val] :=
  Memory.read_writeBytes_inside _ (fontMemory_wf font) _ rom j.val hfit j.isLt

theorem read_loadMemory_outside {a : Nat} (h : a < Config.progBase ∨ Config.progBase + rom.length ≤ a) :
    (loadMemory font rom).read a = (fontMemory font).read a :=
  Memory.read_writeBytes_outside _ (fontMemory_wf font) _ rom a hfit h

theorem read_loadMemory_font (k : Fin 80) : (loadMemory font rom).read k.val = font[k.val] := by
  have hbelow : k.val < Config.progBase := k.isLt.trans (by decide)
  rw [read_loadMemory_outside font hfit (.inl hbelow), read_fontMemory_font]

theorem read_loadMemory_elsewhere {a : Nat} (hfont : Config.fontSize ≤ a)
    (h : a < Config.progBase ∨ Config.progBase + rom.length ≤ a) : (loadMemory font rom).read a = 0#8 := by
  rw [read_loadMemory_outside font hfit h, read_fontMemory_above font hfont]

end

/-! ## What Load answers (70_reset_and_hazards.md R230, R232) -/

theorem load_of_fits (font : Config.Font) {rom : List Byte} (h : rom.length + Config.progBase ≤ Config.memSize) :
    load font rom = .loaded { State.reset with mem := loadMemory font rom } := if_neg (Nat.not_lt.2 h)

theorem load_of_too_large (font : Config.Font) {rom : List Byte} (h : Config.memSize < rom.length + Config.progBase) :
    load font rom = .romTooLarge := if_pos h

theorem reset_reg (r : Reg) : State.reset.reg r = 0#8 := Vector.getElem_replicate _

/-- Settles O19: Load changes the reset state in its memory alone, which reads as the ROM inside the block written last,
as the font inside the block written before it, and as 0 at every other address. -/
theorem loadBuildsMemoryAndRegisters : Obligations.LoadBuildsMemoryAndRegisters := by
  refine fun font rom => ⟨fun hlen => ?_, load_of_too_large font⟩
  have hfit : Config.progBase + rom.length ≤ Config.memSize := (Nat.add_comm ..).trans_le hlen
  exact ⟨_, load_of_fits font hlen, read_loadMemory_font font hfit, read_loadMemory_rom font hfit,
    fun _ => read_loadMemory_elsewhere font hfit, reset_reg, rfl, rfl, rfl, rfl⟩

end Sys2Proof.Machine
end

section
/-! The round trips of the decoder and the assembler (30_encoding.md R73, R74, R82). -/

namespace Sys2Proof

/-! ## Decoding and encoding -/

/-- Every family of `Laws.DecodeEncode` is there. -/
theorem decode_encode : (i : Instr) → Laws.DecodeEncode.Statement i
  | .cls => Laws.DecodeEncode.cls
  | .ret => Laws.DecodeEncode.ret
  | .jp nnn => Laws.DecodeEncode.jp nnn
  | .call nnn => Laws.DecodeEncode.call nnn
  | .seByte x kk => Laws.DecodeEncode.seByte x kk
  | .sneByte x kk => Laws.DecodeEncode.sneByte x kk
  | .seReg x y => Laws.DecodeEncode.seReg x y
  | .ldByte x kk => Laws.DecodeEncode.ldByte x kk
  | .addByte x kk => Laws.DecodeEncode.addByte x kk
  | .ldReg x y => Laws.DecodeEncode.ldReg x y
  | .or x y => Laws.DecodeEncode.or x y
  | .and x y => Laws.DecodeEncode.and x y
  | .xor x y => Laws.DecodeEncode.xor x y
  | .addReg x y => Laws.DecodeEncode.addReg x y
  | .sub x y => Laws.DecodeEncode.sub x y
  | .shr x y => Laws.DecodeEncode.shr x y
  | .subn x y => Laws.DecodeEncode.subn x y
  | .shl x y => Laws.DecodeEncode.shl x y
  | .sneReg x y => Laws.DecodeEncode.sneReg x y
  | .ldI nnn => Laws.DecodeEncode.ldI nnn
  | .jpV0 nnn => Laws.DecodeEncode.jpV0 nnn
  | .rnd x kk => Laws.DecodeEncode.rnd x kk
  | .drw x y n => Laws.DecodeEncode.drw x y n
  | .skp x => Laws.DecodeEncode.skp x
  | .sknp x => Laws.DecodeEncode.sknp x
  | .ldVxDT x => Laws.DecodeEncode.ldVxDT x
  | .ldVxK x => Laws.DecodeEncode.ldVxK x
  | .ldDTVx x => Laws.DecodeEncode.ldDTVx x
  | .ldSTVx x => Laws.DecodeEncode.ldSTVx x
  | .addI x => Laws.DecodeEncode.addI x
  | .ldF x => Laws.DecodeEncode.ldF x
  | .ldB x => Laws.DecodeEncode.ldB x
  | .storeRegs x => Laws.DecodeEncode.storeRegs x
  | .loadRegs x => Laws.DecodeEncode.loadRegs x

/-- Only a row count can be ill formed. -/
theorem wellFormed_of_rowCount {i : Instr} (h : ∀ x y n, i = .drw x y n → n < 16) : i.wellFormed = true := by
  cases i
  case drw x y n => exact decide_eq_true (h x y n rfl)
  all_goals rfl

/-- The row count of a drawing instruction's word is read back mod 16. -/
theorem decode_encode_drw (x y : Reg) (n : Nat) : decode (encode (.drw x y n)) = .instr (.drw x y (n % 16)) := by
  simp [decode, encode]

/-- The word decoded is the word of its instruction, and the decoder reads a row count of at most 15 from that. -/
theorem wellFormed_of_decode {w : Word} {i : Instr} (h : decode w = .instr i) : i.wellFormed = true := by
  refine wellFormed_of_rowCount fun x y n hi => ?_
  subst hi
  rw [← encode_of_decode h, decode_encode_drw] at h
  simp only [Decoded.instr.injEq, Instr.drw.injEq, true_and] at h
  omega

/-- Settles O1: the round trip of each family one way; the other way, the fields of a word give it back
(`encode_of_decode`) and the decoder reads only well-formed instructions. -/
theorem decodeAndEncodeAreInverse : Obligations.DecodeAndEncodeAreInverse :=
  ⟨decode_encode, fun _ _ h => ⟨wellFormed_of_decode h, encode_of_decode h⟩⟩

/-- Settles O4, by evaluating the decoder on the nine words. -/
theorem wordsOfEachFamilyDecode : Obligations.WordsOfEachFamilyDecode := by
  unfold Obligations.WordsOfEachFamilyDecode
  decide

end Sys2Proof

namespace Sys2Proof.Machine

/-! ## Assembling (30_encoding.md R82) -/

@[simp] theorem asByte_toNat (kk : Byte) : asByte kk.toNat = some kk := by
  simp [asByte, kk.isLt]

@[simp] theorem asAddr_toNat (nnn : BitVec 12) : asAddr nnn.toNat = some nnn := by
  simp [asAddr, nnn.isLt]

theorem asCount_of_lt {n : Nat} (h : n < 16) : asCount n = some n := if_pos h

theorem asCount_eq_some_iff {n m : Nat} : asCount n = some m ↔ n < 16 ∧ n = m := by
  simp [asCount]

theorem assemble_disassemble {i : Instr} (h : i.wellFormed = true) : assemble (disassemble i) = some i := by
  cases i
  case drw x y n =>
    have hn : n < 16 := of_decide_eq_true h
    simp [disassemble, assemble, asCount_of_lt hn]
  all_goals simp [disassemble, assemble, assembleShort, assembleLd, assembleRegNum, assembleRegReg]

section
variable {x y : Reg} {n : Nat}

theorem assembleShort_ne_drw (m : Mnemonic) (ops : List AsmOperand) : assembleShort m ops ≠ some (.drw x y n) := by
  unfold assembleShort
  split <;> simp

theorem assembleLd_ne_drw (p q : AsmOperand) : assembleLd p q ≠ some (.drw x y n) := by
  unfold assembleLd
  split <;> simp

theorem assembleRegNum_ne_drw (m : Mnemonic) (z : Reg) (k : Nat) : assembleRegNum m z k ≠ some (.drw x y n) := by
  unfold assembleRegNum
  split <;> simp

theorem assembleRegReg_ne_drw (m : Mnemonic) (z z' : Reg) : assembleRegReg m z z' ≠ some (.drw x y n) := by
  unfold assembleRegReg
  split <;> simp

/-- A drawing instruction comes from its own spelling alone, whose number is a row count. -/
theorem rowCount_of_assemble {l : AsmLine} (h : assemble l = some (.drw x y n)) : n < 16 := by
  unfold assemble at h
  split at h
  · split at h
    · exact absurd h (assembleLd_ne_drw _ _)
    · simp at h
    · exact absurd h (assembleRegNum_ne_drw _ _ _)
    · exact absurd h (assembleRegReg_ne_drw _ _ _)
    · simp at h
  · split at h
    · obtain ⟨m, hm, hi⟩ := Option.map_eq_some_iff.1 h
      obtain ⟨hlt, rfl⟩ := asCount_eq_some_iff.1 hm
      obtain rfl : _ = n := (Instr.drw.inj hi).2.2
      exact hlt
    · simp at h
  · exact absurd h (assembleShort_ne_drw _ _)

end

/-- Settles O5: each spelling is read back token by token, and the only check of well-formedness, the row count, is the
assembler's own. -/
theorem spellingsAssembleToTheirInstruction : Obligations.SpellingsAssembleToTheirInstruction := by
  refine ⟨fun i => assemble_disassemble, fun l i h => wellFormed_of_rowCount fun x y n hi => ?_⟩
  subst hi
  exact rowCount_of_assemble h

end Sys2Proof.Machine
end

section
/-! The statements about fatal errors (60_exceptions.md). -/

namespace Sys2Proof.Machine

/-! ## What raises a fatal error (60_exceptions.md R201) -/

/-- Instruction `i` raises fatal error `k` in the state: one constructor for each cause of the table. The fetch error is
no instruction's. -/
inductive Raises (s : State) : FatalKind → Instr → Prop
  | ret (h : s.stackEmpty) : Raises s .stackUnderflow .ret
  | call (nnn : BitVec 12) (h : s.stackFull) : Raises s .stackOverflow (.call nnn)
  | drw (x y : Reg) (n : Nat) (h : outOfRange s.base n) : Raises s .boundsViolation (.drw x y n)
  | ldB (x : Reg) (h : outOfRange s.base 3) : Raises s .boundsViolation (.ldB x)
  | storeRegs (x : Reg) (h : outOfRange s.base (regCount x)) : Raises s .boundsViolation (.storeRegs x)
  | loadRegs (x : Reg) (h : outOfRange s.base (regCount x)) : Raises s .boundsViolation (.loadRegs x)
  | ldF (x : Reg) (h : ¬ isHexDigit (s.reg x)) : Raises s .fontIndexRange (.ldF x)
  | skp (x : Reg) (h : ¬ isHexDigit (s.reg x)) : Raises s .keyIndexRange (.skp x)
  | sknp (x : Reg) (h : ¬ isHexDigit (s.reg x)) : Raises s .keyIndexRange (.sknp x)
  | addI (x : Reg) (h : 0xFFFF < s.i.toNat + (s.reg x).toNat) : Raises s .indexOverflow (.addI x)

theorem Raises.kind_ne_fetch {s : State} {k : FatalKind} {i : Instr} (h : Raises s k i) : k ≠ .fetchOutOfRange := by
  cases h <;> exact fun e => FatalKind.noConfusion e

/-- A guarded effect that keeps the status either raises or keeps the status. -/
theorem guardFatal_raises_or_keeps {bad : Prop} [Decidable bad] {k : FatalKind} {i : Instr} {s e t : State}
    (h : guardFatal bad k i s e = .next t) (hr : bad → Raises s k i) (he : e.status = s.status) :
    (∃ k, Raises s k i ∧ t = s.raise k i) ∨ t.status = s.status := by
  rcases guardFatal_cases h with ⟨hb, ht⟩ | ⟨_, rfl⟩
  · exact .inl ⟨k, hr hb, ht⟩
  · exact .inr he

/-- An instruction raises a fatal error for one of its causes, and then has no effect of its own, or keeps the status. -/
theorem exec_raises_or_keeps {i : Instr} {s t : State} (h : exec i s = .next t) :
    (∃ k, Raises s k i ∧ t = s.raise k i) ∨ t.status = s.status := by
  cases i
  case ret => exact guardFatal_raises_or_keeps h .ret rfl
  case call nnn => exact guardFatal_raises_or_keeps h (.call nnn) (s.push_status s.pc)
  case drw x y n => exact guardFatal_raises_or_keeps h (.drw x y n) (drawSprite_status s _ _ n)
  case ldB x => exact guardFatal_raises_or_keeps h (.ldB x) rfl
  case storeRegs x => exact guardFatal_raises_or_keeps h (.storeRegs x) rfl
  case loadRegs x => exact guardFatal_raises_or_keeps h (.loadRegs x) rfl
  case ldF x => exact guardFatal_raises_or_keeps h (.ldF x) rfl
  case skp x => exact guardFatal_raises_or_keeps h (.skp x) rfl
  case sknp x => exact guardFatal_raises_or_keeps h (.sknp x) rfl
  case addI x => exact guardFatal_raises_or_keeps h (.addI x) rfl
  all_goals exact .inr ((exec_frame h).2 .status (by simp [writtenParts]))

/-! ## Steps that end HALTED -/

@[simp] theorem resolveWait_status (s : State) (r : Reg) : (s.resolveWait r).status = s.status :=
  (resolveWait_frame s r).2 .status (by simp)

/-- A step ends HALTED by a fetch error or by an error of the instruction it executes. -/
theorem step_halted_cases {s t : State} {e : ErrorRecord} (h : step s = .next t) (he : t.status = .halted e) :
    (s.wait = .running ∧ ¬ s.canFetch ∧ t = s.begin.raiseFetch) ∨
    ∃ i k, s.runs i ∧ Raises s.begin.advance k i ∧ t = s.begin.advance.raise k i := by
  rcases step_cases h with ⟨ha, r, _, rfl⟩ | ⟨_, hw, hf, ht⟩ | ⟨w, hr, rfl⟩ | ⟨i, hr, hx⟩
  · rw [resolveWait_status, State.begin_status, ha] at he
    exact absurd he (by simp)
  · exact .inl ⟨hw, hf, ht⟩
  · have ha : s.status = .active := hr.1.1
    exact absurd (ha.symm.trans he) (by simp)
  · rcases exec_raises_or_keeps hx with ⟨k, hk, ht⟩ | hkeep
    · exact .inr ⟨i, k, hr, hk, ht⟩
    · have ha : s.status = .active := hr.1.1
      exact absurd (ha.symm.trans (hkeep.symm.trans he)) (by simp)

theorem State.runs.encode_eq {s : State} {i : Instr} (h : s.runs i) : encode i = s.fetchWord := encode_of_decode h.2

/-- The address of a record is that of the fetch: the advance is taken back (60_exceptions.md R202). -/
theorem begin_advance_raise_status (s : State) (k : FatalKind) (i : Instr) :
    (s.begin.advance.raise k i).status = .halted ⟨k, some (encode i), s.pc⟩ := by
  simp

theorem begin_advance_raise_frame (s : State) (k : FatalKind) (i : Instr) :
    Frame [] (.pc :: .status :: stepParts) s (s.begin.advance.raise k i) :=
  ((begin_advance_frame s).trans (halt_frame _ _ _ _)).mono (by simp) (by decide)

theorem begin_raiseFetch_frame (s : State) : Frame [] (.status :: stepParts) s s.begin.raiseFetch :=
  ((begin_frame s).trans (halt_frame _ _ _ _)).mono (by simp) (by decide)

/-- Settles O16: by `step_halted_cases` the state after the step is `halt` of the state after phase (a), for an
instruction error after the advance too, and `halt` writes the status alone. -/
theorem fatalErrorsArePrecise : Obligations.FatalErrorsArePrecise := by
  intro s t e h he
  rcases step_halted_cases h he with ⟨_, _, rfl⟩ | ⟨i, k, hr, hk, rfl⟩
  · obtain rfl := Status.halted.inj he
    exact ⟨begin_timersPulsed s, rfl, rfl, (begin_raiseFetch_frame s).mono (by simp) (by decide),
      .inl ⟨rfl, rfl, rfl⟩⟩
  · obtain rfl := Status.halted.inj ((begin_advance_raise_status s k i).symm.trans he)
    exact ⟨begin_timersPulsed s, rfl, rfl, begin_advance_raise_frame s k i,
      .inr ⟨hk.kind_ne_fetch, congrArg some hr.encode_eq, rfl⟩⟩

theorem outOfRange_regCount_iff (b : Nat) (x : Reg) : outOfRange b (regCount x) ↔ 0xFFF < b + x.val := by
  rw [outOfRange_iff, regCount]
  omega

/-- Settles O17: `step_halted_cases`, and the one constructor of `Raises` for each kind and instruction, whose condition
reads registers, I and depth that the start of the step kept. -/
theorem eachFatalErrorHasOnlyItsCauses : Obligations.EachFatalErrorHasOnlyItsCauses := by
  intro s t e h he
  rcases step_halted_cases h he with ⟨hw, hf, rfl⟩ | ⟨i, k, hr, hk, rfl⟩
  · obtain rfl := Status.halted.inj he
    rw [State.canFetch_iff] at hf
    exact ⟨hw, by omega⟩
  · obtain rfl := Status.halted.inj he
    cases hk
    case ret hb => exact ⟨hr, hb⟩
    case call nnn hb => exact ⟨nnn, hr, hb⟩
    case drw x y n hb => exact .inl ⟨x, y, n, hr, hb.1, hb.2⟩
    case ldB x hb => exact .inr (.inl ⟨x, hr, hb.2⟩)
    case storeRegs x hb => exact .inr (.inr ⟨x, .inl hr, (outOfRange_regCount_iff _ x).1 hb⟩)
    case loadRegs x hb => exact .inr (.inr ⟨x, .inr hr, (outOfRange_regCount_iff _ x).1 hb⟩)
    case ldF x hb => exact ⟨x, hr, Nat.not_le.1 hb⟩
    case skp x hb => exact ⟨x, .inl hr, Nat.not_le.1 hb⟩
    case sknp x hb => exact ⟨x, .inr hr, Nat.not_le.1 hb⟩
    case addI x hb => exact ⟨x, hr, hb⟩

/-! ## Fetch errors, error codes -/

/-- Settles O13: both bytes of the fetch do not lie in memory, so the step is phase (a) and the fetch error. -/
theorem fetchBeyondMemoryHalts : Obligations.FetchBeyondMemoryHalts := by
  intro s ha hw hpc
  have hf : ¬ s.canFetch := by
    rw [State.canFetch_iff]
    omega
  exact ⟨_, step_of_noFetch ha hw hf, rfl, begin_timersPulsed s, begin_raiseFetch_frame s⟩

/-- Settles O18: the three functions of the model, evaluated. -/
theorem errorCodesAreTheTables : Obligations.ErrorCodesAreTheTables := ⟨rfl, rfl, fun _ => rfl⟩

end Sys2Proof.Machine
end

section
/-! The statements about what a step answers, reports and keeps (40_step_cycle.md, 10_state.md). -/

namespace Sys2Proof.Machine

/-! ## Frames: one part less, and the step's own -/

/-- A part that reads as before need not be named. -/
theorem Frame.drop {ds : List Reg} {p : Part} {ps : List Part} {s t : State} (h : Frame ds (p :: ps) s t)
    (hp : p.Kept s t) : Frame ds ps s t := by
  refine ⟨h.1, fun q hq => ?_⟩
  by_cases hqp : q = p
  · exact hqp ▸ hp
  · exact h.2 q (by simp [hqp, hq])

/-- Over a whole step, a part that neither the step cycle nor the executed instruction writes is kept. -/
theorem part_kept_of_step {s t : State} {p : Part} (h : step s = .next t)
    (hc : p ∉ [Part.pc, .wait, .status, .report]) (hs : p ∉ stepParts) (hi : ∀ i, s.runs i → p ∉ writtenParts i) :
    p.Kept s t :=
  ((begin_frame s).2 p hs).trans (part_kept_after_begin h hc hi)

/-- What holds of the state with the error taken and of the effect holds of what a guarded effect answers. -/
theorem guardFatal_elim {P : State → Prop} {bad : Prop} [Decidable bad] {k : FatalKind} {i : Instr} {s e t : State}
    (h : guardFatal bad k i s e = .next t) (hr : P (s.raise k i)) (he : ¬ bad → P e) : P t := by
  rcases guardFatal_cases h with ⟨_, rfl⟩ | ⟨hb, rfl⟩
  · exact hr
  · exact he hb

/-! ## When a step answers, and what it runs (40_step_cycle.md R91, R94, R97) -/

/-- Settles O9: an ACTIVE block always steps (`step_next_of_active`), and a HALTED one never does. -/
theorem stepAnswersExactlyWhenActive : Obligations.StepAnswersExactlyWhenActive := by
  refine fun s => ⟨fun ⟨t, ht⟩ => ?_, step_next_of_active⟩
  cases he : s.status with
  | active => rfl
  | halted e => exact absurd ((step_of_halted he).symm.trans ht) (by simp)

/-- Settles O7: `u` is the state after phase (a) and the advance. -/
theorem stepRunsTheDecodedInstruction : Obligations.StepRunsTheDecodedInstruction := by
  intro s i ha hw hpc hd
  have hf : s.canFetch := Nat.lt_succ_of_le hpc
  exact ⟨s.begin.advance, step_of_runs ⟨⟨ha, hw, hf⟩, hd⟩, rfl, begin_timersPulsed s, rfl, rfl, rfl,
    begin_advance_frame s⟩

/-- A run of one step or more ends at once where there is no step. -/
theorem run_succ_of_halted {s : State} {e : ErrorRecord} (h : s.status = .halted e) (n : Nat) :
    Host.Core.run Sys2Proof.core (n + 1) s = .fault .halted := by
  have hstep : Sys2Proof.core.step s = .fault .halted := step_of_halted h
  simp only [Host.Core.run, hstep]

/-- Settles O8: a HALTED block has no step, so no run gets past its first. -/
theorem haltedBlockHasNoStep : Obligations.HaltedBlockHasNoStep :=
  fun _ _ h => ⟨step_of_halted h, run_succ_of_halted h⟩

/-! ## The key wait (40_step_cycle.md R93) -/

/-- Settles O11: with no key pressed the step is phase (a) alone. -/
theorem waitWithNoKeyStaysWaiting : Obligations.WaitWithNoKeyStaysWaiting := by
  intro s r ha hw hk
  have hstay : s.begin.resolveWait r = s.begin := by
    simp [State.resolveWait, (lowestKey_none_iff _).2 hk]
  exact ⟨s.begin, by rw [step_of_waiting ha hw, hstay], begin_timersPulsed s, rfl, begin_frame s⟩

/-- Settles O12: with a key pressed the step is phase (a), then the write of the lowest key and RUNNING. -/
theorem waitResolvesToLowestPressedKey : Obligations.WaitResolvesToLowestPressedKey := by
  intro s r ha hw hne
  rcases resolveWait_cases s.begin r with ⟨h0, _⟩ | ⟨k, hk, ht⟩
  · exact absurd h0 hne
  obtain ⟨hpressed, hlowest⟩ := (lowestKey_some_iff _ k).1 hk
  refine ⟨(s.begin.setReg r (BitVec.ofNat 8 k.val)).setWait .running, k, by rw [step_of_waiting ha hw, ht], hpressed,
    hlowest, ?_, rfl, begin_timersPulsed s, rfl, ?_⟩
  · have := k.isLt
    rw [State.reg_setWait, State.reg_setReg_self, BitVec.toNat_ofNat]
    omega
  · exact (((begin_frame s).trans (setReg_frame _ r _)).trans (setWait_frame _ _)).mono (by simp) (by decide)

/-! ## Reports (60_exceptions.md R206) -/

theorem report_notMem_writtenParts (i : Instr) : Part.report ∉ writtenParts i := by
  cases i <;> simp [writtenParts]

/-- The report of a step is that of the unsupported word it executed, or none. -/
theorem step_report {s t : State} (h : step s = .next t) :
    (∃ w, s.runsUnsupported w ∧ t.report = some ⟨w, s.pc⟩) ∨ t.report = none := by
  rcases step_cases h with ⟨_, r, _, rfl⟩ | ⟨_, _, _, rfl⟩ | ⟨w, hw, rfl⟩ | ⟨i, _, hx⟩
  · exact .inr ((resolveWait_frame s.begin r).2 .report (by simp))
  · exact .inr rfl
  · exact .inl ⟨w, hw, rfl⟩
  · exact .inr ((exec_frame hx).2 .report (report_notMem_writtenParts i))

/-- Settles O15: `step_report` one way; the other way, the step of an unsupported word leaves its report. -/
theorem onlyUnsupportedWordsAreReported : Obligations.OnlyUnsupportedWordsAreReported := by
  refine fun s t r h => ⟨fun hr => ?_, fun ⟨hf, hd, hr⟩ => ?_⟩
  · rcases step_report h with ⟨w, hw, ht⟩ | hnone
    · obtain rfl := decode_unsupported hw.2
      exact ⟨hw.1, by simp [hw.2], Option.some.inj (hr.symm.trans ht)⟩
    · exact absurd (hnone.symm.trans hr) (by simp)
  · have hstep := step_of_runsUnsupported (runsUnsupported_fetchWord hf hd)
    obtain rfl := Host.Outcome.next.inj (hstep.symm.trans h)
    exact hr ▸ rfl

/-! ## Which instructions write which part -/

theorem stack_mem_writtenParts_iff (i : Instr) : Part.stack ∈ writtenParts i ↔ i = .ret ∨ ∃ nnn, i = .call nnn := by
  cases i <;> simp [writtenParts]

theorem display_mem_writtenParts_iff (i : Instr) :
    Part.display ∈ writtenParts i ↔ i = .cls ∨ ∃ x y n, i = .drw x y n := by
  cases i <;> simp [writtenParts]

theorem memory_mem_writtenParts_iff (i : Instr) :
    Part.memory ∈ writtenParts i ↔ (∃ x, i = .ldB x) ∨ ∃ x, i = .storeRegs x := by
  cases i <;> simp [writtenParts]

theorem index_mem_writtenParts_iff (i : Instr) :
    Part.index ∈ writtenParts i ↔ (∃ nnn, i = .ldI nnn) ∨ (∃ x, i = .addI x) ∨ ∃ x, i = .ldF x := by
  cases i <;> simp [writtenParts]

theorem wait_mem_writtenParts_iff (i : Instr) : Part.wait ∈ writtenParts i ↔ ∃ x, i = .ldVxK x := by
  cases i <;> simp [writtenParts]

/-- The key wait is entered by Fx0A alone. -/
theorem waiting_of_step {s t : State} {x : Reg} (h : step s = .next t) (hw : t.wait = .waiting x) :
    s.wait = .waiting x ∨ s.runs (.ldVxK x) := by
  rcases step_cases h with ⟨_, r, _, rfl⟩ | ⟨_, _, _, rfl⟩ | ⟨_, _, rfl⟩ | ⟨i, hr, hx⟩
  · rcases resolveWait_cases s.begin r with ⟨_, hstay⟩ | ⟨k, _, hresolved⟩
    · rw [hstay] at hw
      exact .inl hw
    · rw [hresolved] at hw
      exact absurd hw (by simp)
  · exact .inl hw
  · exact .inl hw
  · by_cases hi : Part.wait ∈ writtenParts i
    · obtain ⟨y, rfl⟩ := (wait_mem_writtenParts_iff i).1 hi
      obtain rfl := Host.Outcome.next.inj hx
      obtain rfl : y = x := KeyWait.waiting.inj hw
      exact .inr hr
    · have hkept : t.wait = s.wait := (exec_frame hx).2 .wait hi
      exact .inl (hkept.symm.trans hw)

/-- Settles O27: `part_kept_of_step` with the list of the instructions that write each part, and `waiting_of_step`. -/
theorem eachPartChangesOnlyByItsInstructions : Obligations.EachPartChangesOnlyByItsInstructions := by
  refine fun s t h => ⟨fun hcall hret => ?stack, fun hcls hdrw => ?display, fun hldB hstore => ?memory,
    fun hldI haddI hldF => ?index, fun x => waiting_of_step h⟩
  case stack =>
    refine part_kept_of_step h (by decide) (by decide) fun i hr hi => ?_
    rcases (stack_mem_writtenParts_iff i).1 hi with rfl | ⟨nnn, rfl⟩
    exacts [hret hr, hcall nnn hr]
  case display =>
    refine part_kept_of_step h (by decide) (by decide) fun i hr hi => ?_
    rcases (display_mem_writtenParts_iff i).1 hi with rfl | ⟨x, y, n, rfl⟩
    exacts [hcls hr, hdrw x y n hr]
  case memory =>
    refine part_kept_of_step h (by decide) (by decide) fun i hr hi => ?_
    rcases (memory_mem_writtenParts_iff i).1 hi with ⟨x, rfl⟩ | ⟨x, rfl⟩
    exacts [hldB x hr, hstore x hr]
  case index =>
    refine part_kept_of_step h (by decide) (by decide) fun i hr hi => ?_
    rcases (index_mem_writtenParts_iff i).1 hi with ⟨nnn, rfl⟩ | ⟨x, rfl⟩ | ⟨x, rfl⟩
    exacts [hldI nnn hr, haddI x hr, hldF x hr]

/-! ## The address register (10_state.md R24) -/

theorem addrOperand_le (nnn : BitVec 12) : (addrOperand nnn).toNat ≤ 0xFFF := by
  rw [addrOperand_toNat]
  exact Nat.le_of_lt_succ nnn.isLt

theorem glyphAddr_le {d : Byte} (h : isHexDigit d) : (glyphAddr d).toNat ≤ 0xFFF := by
  rw [glyphAddr_toNat]
  omega

/-- No instruction but Fx1E takes I out of memory. -/
theorem exec_index_le {i : Instr} {s t : State} (h : exec i s = .next t) (hi : ∀ x, i ≠ .addI x)
    (hs : s.i.toNat ≤ 0xFFF) : t.i.toNat ≤ 0xFFF := by
  by_cases hw : Part.index ∈ writtenParts i
  · rcases (index_mem_writtenParts_iff i).1 hw with ⟨nnn, rfl⟩ | ⟨x, rfl⟩ | ⟨x, rfl⟩
    · obtain rfl := Host.Outcome.next.inj h
      exact addrOperand_le nnn
    · exact absurd rfl (hi x)
    · exact guardFatal_elim (P := fun u => u.i.toNat ≤ 0xFFF) h hs fun hd => glyphAddr_le (not_not.1 hd)
  · have hkept : t.i = s.i := (exec_frame h).2 .index hw
    exact hkept ▸ hs

/-- Settles O28: a step that executes an instruction leaves I as `exec_index_le` says; any other step keeps I. -/
theorem indexLeavesMemoryOnlyByAddI : Obligations.IndexLeavesMemoryOnlyByAddI := by
  intro s t h ht
  by_contra hn
  simp only [not_or, not_lt, not_exists] at hn
  obtain ⟨hs, haddI⟩ := hn
  refine absurd ht (Nat.not_lt.2 ?_)
  by_cases hr : ∃ i, s.runs i
  · obtain ⟨i, hr⟩ := hr
    rw [step_of_runs hr] at h
    exact exec_index_le h (fun x hx => haddI x (hx ▸ hr)) hs
  · have hkept : t.i = s.i :=
      part_kept_of_step (p := .index) h (by decide) (by decide) fun i hi => absurd ⟨i, hi⟩ hr
    exact hkept ▸ hs

/-! ## The program counter (10_state.md R25, 41_control_flow.md R118) -/

theorem skipIf_pc_eq (s : State) (c : Bool) : (s.skipIf c).pc = s.pc ∨ (s.skipIf c).pc = s.pc + 2#16 := by
  cases c
  exacts [.inl rfl, .inr rfl]

theorem begin_advance_skipIf_pc (s : State) (c : Bool) :
    (s.begin.advance.skipIf c).pc = s.pc + 2#16 ∨ (s.begin.advance.skipIf c).pc = s.pc + 4#16 :=
  (skipIf_pc_eq s.begin.advance c).imp id fun h => h.trans (BitVec.add_assoc s.pc 2#16 2#16)

/-- Settles O29: a skip is `skipIf` on the advanced pc, or the error of a key skip; every other instruction that is no jump,
call or return has no pc in its frame. -/
theorem pcAdvancesByTwoOrFour : Obligations.PcAdvancesByTwoOrFour := by
  intro s t i hr h
  rw [step_of_runs hr] at h
  cases i
  case jp | call | ret | jpV0 => trivial
  case seByte | sneByte | seReg | sneReg =>
    obtain rfl := Host.Outcome.next.inj h
    exact begin_advance_skipIf_pc s _
  case skp | sknp =>
    exact guardFatal_elim (P := fun u => u.pc = s.pc + 2#16 ∨ u.pc = s.pc + 4#16) h (.inl rfl) fun _ =>
      begin_advance_skipIf_pc s _
  all_goals exact (exec_frame h).2 .pc (by simp [writtenParts])

/-! ## The invariant (10_state.md R25, R28; 60_exceptions.md R202) -/

theorem exec_keeps_mem_wf {i : Instr} {s t : State} (h : exec i s = .next t) (hm : s.mem.wf) : t.mem.wf := by
  cases i
  case ldB | storeRegs =>
    exact guardFatal_elim (P := fun u => u.mem.wf) h hm fun _ => s.mem.writeBytes_wf hm _ _
  case call => exact guardFatal_elim (P := fun u => u.mem.wf) h hm fun _ => (s.push_mem s.pc).symm ▸ hm
  case ret | drw | skp | sknp | addI | ldF | loadRegs =>
    exact guardFatal_elim (P := fun u => u.mem.wf) h hm fun _ => hm
  all_goals
    obtain rfl := Host.Outcome.next.inj h
    exact hm

theorem sp_lt_of_not_stackFull {s : State} (h : ¬ s.stackFull) : s.sp.val < Config.stackDepth :=
  Nat.lt_of_le_of_ne (Nat.le_of_lt_succ s.sp.isLt) h

theorem exec_keeps_slots_le {i : Instr} {s t : State} (h : exec i s = .next t) (hpc : s.pc.toNat ≤ 0x1000)
    (hs : ∀ k, (s.slot k).toNat ≤ 0x1000) (k : Fin 16) : (t.slot k).toNat ≤ 0x1000 := by
  cases i
  case ret => exact guardFatal_elim (P := fun u => (u.slot k).toNat ≤ 0x1000) h (hs k) fun _ => hs k
  case call nnn =>
    refine guardFatal_elim (P := fun u => (u.slot k).toNat ≤ 0x1000) h (hs k) fun hfull => ?_
    rw [State.slot_jump, s.slot_push s.pc k (sp_lt_of_not_stackFull hfull)]
    split_ifs
    exacts [hpc, hs k]
  all_goals
    have hkept : t.slot k = s.slot k := ((exec_frame h).2 .stack (by simp [writtenParts])).2 k
    exact hkept ▸ hs k

theorem skipIf_pc_le {s : State} (h : s.pc.toNat ≤ 0x1000) (c : Bool) : (s.skipIf c).pc.toNat ≤ 0x10FE := by
  rcases skipIf_pc_eq s c with hc | hc <;> rw [hc]
  · omega
  · rw [BitVec.toNat_add, BitVec.toNat_ofNat]
    omega

/-- The target of Bnnn is an exact sum (41_control_flow.md R117). -/
theorem jpV0_target_toNat (nnn : BitVec 12) (b : Byte) :
    (addrOperand nnn + b.setWidth 16).toNat = nnn.toNat + b.toNat := by
  have := nnn.isLt
  have := b.isLt
  rw [BitVec.toNat_add, addrOperand_toNat, BitVec.toNat_setWidth]
  omega

theorem jpV0_target_le (nnn : BitVec 12) (b : Byte) : (addrOperand nnn + b.setWidth 16).toNat ≤ 0x10FE := by
  have := nnn.isLt
  have := b.isLt
  rw [jpV0_target_toNat]
  omega

theorem exec_pc_le {i : Instr} {s t : State} (h : exec i s = .next t) (hpc : s.pc.toNat ≤ 0x1000)
    (hs : ∀ k, (s.slot k).toNat ≤ 0x1000) : t.pc.toNat ≤ 0x10FE := by
  have hkept : s.pc.toNat ≤ 0x10FE := by omega
  cases i
  case jp nnn =>
    obtain rfl := Host.Outcome.next.inj h
    exact (addrOperand_le nnn).trans (by decide)
  case jpV0 nnn =>
    obtain rfl := Host.Outcome.next.inj h
    exact jpV0_target_le nnn _
  case call nnn =>
    exact guardFatal_elim (P := fun u => u.pc.toNat ≤ 0x10FE) h hkept fun _ => (addrOperand_le nnn).trans (by decide)
  case ret =>
    exact guardFatal_elim (P := fun u => u.pc.toNat ≤ 0x10FE) h hkept fun _ =>
      (hs ⟨s.sp.val - 1, s.sp_pred_lt⟩).trans (by decide)
  case seByte | sneByte | seReg | sneReg =>
    obtain rfl := Host.Outcome.next.inj h
    exact skipIf_pc_le hpc _
  case skp | sknp =>
    exact guardFatal_elim (P := fun u => u.pc.toNat ≤ 0x10FE) h hkept fun _ => skipIf_pc_le hpc _
  all_goals
    have hsame : t.pc = s.pc := (exec_frame h).2 .pc (by simp [writtenParts])
    exact hsame ▸ hkept

theorem exec_keeps_recordOk {i : Instr} {s t : State} (h : exec i s = .next t) (hs : s.status.RecordOk) :
    t.status.RecordOk := by
  rcases exec_raises_or_keeps h with ⟨k, hk, rfl⟩ | hkeep
  · exact ⟨fun hw => absurd hw (Option.some_ne_none _), fun hfetch => absurd hfetch hk.kind_ne_fetch⟩
  · exact hkeep ▸ hs

theorem advance_pc_le {s : State} (h : s.canFetch) : (s.pc + 2#16).toNat ≤ 0x1000 := by
  rw [State.canFetch_iff] at h
  rw [BitVec.toNat_add, BitVec.toNat_ofNat]
  omega

/-- Settles O22: the key wait and the fetch error touch none of the four parts but the status; an unsupported word advances
a pc that could fetch; an instruction starts from such a pc and keeps each part by its own lemma. -/
theorem everyStepKeepsTheInvariant : Obligations.EveryStepKeepsTheInvariant := by
  intro s t ⟨hm, hpc, hslots, hrec⟩ h
  rcases step_cases h with ⟨_, r, _, rfl⟩ | ⟨_, _, _, rfl⟩ | ⟨w, hw, rfl⟩ | ⟨i, hr, hx⟩
  · rcases resolveWait_cases s.begin r with ⟨_, hu⟩ | ⟨k, _, hu⟩ <;> rw [hu] <;> exact ⟨hm, hpc, hslots, hrec⟩
  · exact ⟨hm, hpc, hslots, ⟨fun _ => rfl, fun _ => rfl⟩⟩
  · have hadv : (s.pc + 2#16).toNat ≤ 0x1000 := advance_pc_le hw.1.2.2
    exact ⟨hm, hadv.trans (by decide), hslots, hrec⟩
  · have hadv : s.begin.advance.pc.toNat ≤ 0x1000 := advance_pc_le hr.1.2.2
    exact ⟨exec_keeps_mem_wf hx hm, exec_pc_le hx hadv hslots, exec_keeps_slots_le hx hadv hslots,
      exec_keeps_recordOk hx hrec⟩

/-! ## Load (70_reset_and_hazards.md R233 to R235) -/

theorem reset_slot (k : Fin 16) : State.reset.slot k = 0#16 := Vector.getElem_replicate _

theorem load_eq_loaded {font : Config.Font} {rom : List Byte} {s : State} (h : load font rom = .loaded s) :
    s = { State.reset with mem := loadMemory font rom } := by
  unfold load at h
  split_ifs at h
  exact (LoadResult.loaded.inj h).symm

/-- Settles O20: what Load answers differs from the reset state in its memory alone, which is canonical. -/
theorem loadClearsStackFrameAndControl : Obligations.LoadClearsStackFrameAndControl := by
  intro font rom s h
  obtain rfl := load_eq_loaded h
  have hslots : ∀ k, (State.reset.slot k).toNat ≤ 0x1000 := fun k => by
    rw [reset_slot]
    decide
  have hpc : State.reset.pc.toNat ≤ 0x10FE := by decide
  exact ⟨rfl, reset_slot, pixel_clearFrame, rfl, rfl, loadMemory_wf font rom, hpc, hslots, trivial⟩

/-- Settles O21: the default font is what unlisted addresses read as, so its Load lists no cell. -/
theorem resetIsLoadOfNoProgram : Obligations.ResetIsLoadOfNoProgram := by
  have hload : load Config.defaultFont [] = .loaded State.reset := by decide
  obtain ⟨_, _, _, _, _, hinv⟩ := loadClearsStackFrameAndControl _ _ _ hload
  exact ⟨hload, rfl, hinv⟩

end Sys2Proof.Machine
end

section
/-! The statements about what a step depends on (40_step_cycle.md R100, R101; 60_exceptions.md R208; 10_state.md R27). -/

namespace Sys2Proof.Machine

/-! ## States that differ in the sound timer and the inputs alone -/

/-- `s` with `b` as its sound timer and with the inputs of `u`: the four fields that an instruction, but for Cxkk, the key
skips and Fx18, neither reads nor writes. -/
def State.overlay (s : State) (b : Byte) (u : State) : State :=
  { s with st := b, input := u.input, pending := u.pending, drawn := u.drawn }

section
variable {s t u : State} {b : Byte}

theorem push_overlay (s : State) (w : Word) (b : Byte) (u : State) :
    (s.overlay b u).push w = (s.push w).overlay b u := by
  by_cases h : s.sp.val < Config.stackDepth
  · have h' : (s.overlay b u).sp.val < Config.stackDepth := h
    simp only [State.push, dif_pos h, dif_pos h']
    rfl
  · rw [State.push_full s w h]
    exact State.push_full (s.overlay b u) w h

theorem key_overlay (h : u.input.pressedKeys = s.input.pressedKeys) (k : Nat) : (s.overlay b u).key k = s.key k :=
  congrArg (BitVec.getLsbD · k) h

/-- A map of states that commutes with taking the error commutes with a guarded effect. -/
theorem guardFatal_map {bad : Prop} [Decidable bad] {k : FatalKind} {i : Instr} {e : State} (g : State → State)
    (h : guardFatal bad k i s e = .next t) (hr : g (s.raise k i) = (g s).raise k i) :
    guardFatal bad k i (g s) (g e) = .next (g t) := by
  rcases guardFatal_cases h with ⟨hb, rfl⟩ | ⟨hb, rfl⟩
  · rw [guardFatal_bad k i _ _ hb, hr]
  · exact guardFatal_good k i _ _ hb

/-- An instruction but Fx18 acts alike under any sound timer and under any inputs that agree on what it reads: the mask for
the key skips, the random byte for Cxkk. -/
theorem exec_overlay {i : Instr} (h : exec i s = .next t) (hst : ∀ x, i ≠ .ldSTVx x)
    (hkeys : (∃ x, i = .skp x ∨ i = .sknp x) → u.input.pressedKeys = s.input.pressedKeys)
    (hrand : (∃ x kk, i = .rnd x kk) → u.input.rand = s.input.rand) :
    exec i (s.overlay b u) = .next (t.overlay b u) := by
  cases i
  case ldSTVx x => exact absurd rfl (hst x)
  case skp x =>
    rw [exec, execSkp, key_overlay (hkeys ⟨x, .inl rfl⟩)]
    exact guardFatal_map (·.overlay b u) h rfl
  case sknp x =>
    rw [exec, execSknp, key_overlay (hkeys ⟨x, .inr rfl⟩)]
    exact guardFatal_map (·.overlay b u) h rfl
  case rnd x kk =>
    obtain rfl := Host.Outcome.next.inj h
    have hr : (s.overlay b u).input.rand = s.input.rand := hrand ⟨x, kk, rfl⟩
    rw [exec, execRnd, hr]
    rfl
  case call nnn =>
    rw [exec, execCall, push_overlay]
    exact guardFatal_map (·.overlay b u) h rfl
  case ret | drw | addI | ldF | ldB | storeRegs | loadRegs => exact guardFatal_map (·.overlay b u) h rfl
  all_goals
    obtain rfl := Host.Outcome.next.inj h
    rfl

/-- Every instruction acts alike there, up to the sound timer, which Fx18 sets to the same value. -/
theorem exec_overlay_sound {i : Instr} (h : exec i s = .next t)
    (hkeys : (∃ x, i = .skp x ∨ i = .sknp x) → u.input.pressedKeys = s.input.pressedKeys)
    (hrand : (∃ x kk, i = .rnd x kk) → u.input.rand = s.input.rand) :
    ∃ c, exec i (s.overlay b u) = .next (t.overlay c u) ∧ (b = s.st → c = t.st) := by
  by_cases hst : ∃ x, i = .ldSTVx x
  · obtain ⟨x, rfl⟩ := hst
    obtain rfl := Host.Outcome.next.inj h
    exact ⟨s.reg x, rfl, fun _ => rfl⟩
  · have hkept : t.st = s.st :=
      (exec_frame h).2 .sound fun hi => hst ((sound_mem_writtenParts_iff i).1 hi)
    exact ⟨b, exec_overlay h (fun x hx => hst ⟨x, hx⟩) hkeys hrand, fun hb => hb.trans hkept.symm⟩

/-! ## Steps of such states -/

/-- After phase (a), `t` differs from `s` in the sound timer and the inputs alone. -/
def BeginsAlike (s t : State) : Prop := t.begin = s.begin.overlay t.begin.st t.begin

theorem BeginsAlike.status_eq (h : BeginsAlike s t) : t.status = s.status := (congrArg State.status h :)
theorem BeginsAlike.wait_eq (h : BeginsAlike s t) : t.wait = s.wait := (congrArg State.wait h :)
theorem BeginsAlike.pc_eq (h : BeginsAlike s t) : t.pc = s.pc := (congrArg State.pc h :)
theorem BeginsAlike.fetchWord_eq (h : BeginsAlike s t) : t.fetchWord = s.fetchWord := (congrArg State.fetchWord h :)

theorem BeginsAlike.fetches (h : BeginsAlike s t) (hf : s.fetches) : t.fetches := by
  obtain ⟨ha, hw, hc⟩ := hf
  refine ⟨h.status_eq.trans ha, h.wait_eq.trans hw, ?_⟩
  rwa [State.canFetch_iff, h.pc_eq]

theorem BeginsAlike.runs {i : Instr} (h : BeginsAlike s t) (hr : s.runs i) : t.runs i :=
  ⟨h.fetches hr.1, by rw [h.fetchWord_eq, hr.2]⟩

theorem BeginsAlike.runsUnsupported {w : Word} (h : BeginsAlike s t) (hr : s.runsUnsupported w) :
    t.runsUnsupported w :=
  ⟨h.fetches hr.1, by rw [h.fetchWord_eq, hr.2]⟩

theorem resolveWait_overlay {r : Reg} (h : u.input.pressedKeys = s.input.pressedKeys) :
    (s.overlay b u).resolveWait r = (s.resolveWait r).overlay b u := by
  have hk : (s.overlay b u).input.pressedKeys = s.input.pressedKeys := h
  rw [State.resolveWait, State.resolveWait, hk]
  cases lowestKey s.input.pressedKeys <;> rfl

/-- States that begin alike step alike, up to the sound timer and the inputs, if the inputs agree on what the step reads:
the mask in a wait and for a key skip, the random byte for Cxkk. -/
theorem BeginsAlike.step_eq (h : BeginsAlike s t) {s' : State} (hs : step s = .next s')
    (hkeys : (∃ r, s.wait = .waiting r) ∨ (∃ x, s.runs (.skp x) ∨ s.runs (.sknp x)) →
      t.nextInput.pressedKeys = s.nextInput.pressedKeys)
    (hrand : (∃ x kk, s.runs (.rnd x kk)) → t.nextInput.rand = s.nextInput.rand) :
    ∃ c, step t = .next (s'.overlay c t.begin) ∧ (t.begin.st = s.begin.st → c = s'.st) := by
  rcases step_cases hs with ⟨ha, r, hw, rfl⟩ | ⟨ha, hw, hf, rfl⟩ | ⟨w, hr, rfl⟩ | ⟨i, hr, hx⟩
  · have hkept : (s.begin.resolveWait r).st = s.begin.st := (resolveWait_frame s.begin r).2 .sound (by simp)
    refine ⟨t.begin.st, ?_, fun hst => hst.trans hkept.symm⟩
    rw [step_of_waiting (h.status_eq.trans ha) (h.wait_eq.trans hw), ← resolveWait_overlay (hkeys (.inl ⟨r, hw⟩)), ← h]
  · refine ⟨t.begin.st, ?_, id⟩
    have hf' : ¬ t.canFetch := by rwa [State.canFetch_iff, h.pc_eq]
    rw [step_of_noFetch (h.status_eq.trans ha) (h.wait_eq.trans hw) hf', h]
    rfl
  · refine ⟨t.begin.st, ?_, id⟩
    rw [step_of_runsUnsupported (h.runsUnsupported hr), h, h.pc_eq]
    rfl
  · rw [step_of_runs (h.runs hr)]
    have hadv : t.begin.advance = s.begin.advance.overlay t.begin.st t.begin := congrArg State.advance h
    rw [hadv]
    refine exec_overlay_sound hx (fun hi => hkeys (.inr ?_)) fun ⟨x, kk, hi⟩ => hrand ⟨x, kk, hi ▸ hr⟩
    obtain ⟨x, rfl | rfl⟩ := hi
    exacts [⟨x, .inl hr⟩, ⟨x, .inr hr⟩]

/-! ## The same block (40_step_cycle.md R101) -/

theorem eq_overlay_of_sameBlock (h : SameBlock s t) (hr : t.report = s.report) : t = s.overlay t.st t := by
  obtain ⟨hv, hi, hpc, hdt, -, hstack, hsp, hfb, hwait, hstatus, hmem⟩ := h
  cases t
  simp_all [State.overlay]

theorem sameBlock_begin (h : SameBlock s t) (hp : s.nextInput.decrementTimers = t.nextInput.decrementTimers) :
    SameBlock s.begin t.begin := by
  obtain ⟨hv, hi, hpc, hdt, hst, hstack, hsp, hfb, hwait, hstatus, hmem⟩ := h
  refine ⟨hv, hi, hpc, ?_, ?_, hstack, hsp, hfb, hwait, hstatus, hmem⟩
  · simp [State.begin, hdt, hp]
  · simp [State.begin, hst, hp]

/-- The same block and the same pulse, with inputs that agree on what the step reads, give the same outcome. -/
theorem sameOutcome_of_sameBlock (h : SameBlock s t) (hp : s.nextInput.decrementTimers = t.nextInput.decrementTimers)
    (hkeys : (∃ r, s.wait = .waiting r) ∨ (∃ x, s.runs (.skp x) ∨ s.runs (.sknp x)) →
      s.nextInput.pressedKeys = t.nextInput.pressedKeys)
    (hrand : (∃ x kk, s.runs (.rnd x kk)) → s.nextInput.rand = t.nextInput.rand) : SameOutcome (step s) (step t) := by
  have hblock := sameBlock_begin h hp
  have halike : BeginsAlike s t := eq_overlay_of_sameBlock hblock rfl
  have hst : t.begin.st = s.begin.st := by
    obtain ⟨-, -, -, -, hst, -⟩ := hblock
    exact hst
  cases ha : s.status with
  | halted e =>
    rw [step_of_halted ha, step_of_halted (halike.status_eq.trans ha)]
    rfl
  | active =>
    obtain ⟨s', hs⟩ := step_next_of_active ha
    obtain ⟨c, ht, hc⟩ := halike.step_eq hs (fun hk => (hkeys hk).symm) fun hr => (hrand hr).symm
    rw [hs, ht]
    exact ⟨⟨rfl, rfl, rfl, rfl, hc hst, rfl, rfl, rfl, rfl, rfl, rfl⟩, rfl⟩

end

/-- Settles O23: all three inputs agree. -/
theorem blockAndInputsDetermineTheStep : Obligations.BlockAndInputsDetermineTheStep := by
  intro s t h hin
  exact sameOutcome_of_sameBlock h (by rw [hin]) (fun _ => by rw [hin]) fun _ => by rw [hin]

/-- Settles O24: without Cxkk nothing is asked of the random byte. -/
theorem onlyRndReadsTheRandomByte : Obligations.OnlyRndReadsTheRandomByte := by
  intro s t h hp hk hn
  exact sameOutcome_of_sameBlock h hp (fun _ => hk) fun ⟨x, kk, hr⟩ => absurd hr (hn x kk)

/-- Settles O25: without a wait and a key skip nothing is asked of the mask. -/
theorem onlyKeySkipsAndWaitsReadTheKeys : Obligations.OnlyKeySkipsAndWaitsReadTheKeys := by
  intro s t h hp hr hw hskp hsknp
  refine sameOutcome_of_sameBlock h hp (fun hk => ?_) fun _ => hr
  rcases hk with ⟨r, hwait⟩ | ⟨x, hx | hx⟩
  · exact absurd (hw.symm.trans hwait) (by simp)
  · exact absurd hx (hskp x)
  · exact absurd hx (hsknp x)

/-! ## The sound timer (10_state.md R27) -/

/-- Settles O26: phase (a) leaves the two states alike but for the sound timer, and their inputs are the same. -/
theorem noInstructionReadsTheSoundTimer : Obligations.NoInstructionReadsTheSoundTimer := by
  refine fun s b => ⟨fun t ht => ?_, fun hf => ?_⟩
  · have halike : BeginsAlike s { s with st := b } := rfl
    obtain ⟨c, hu, -⟩ := halike.step_eq ht (fun _ => rfl) fun _ => rfl
    exact ⟨_, hu, ⟨rfl, rfl, rfl, rfl, rfl, rfl, rfl, rfl, rfl, rfl, rfl⟩, rfl⟩
  · cases he : s.status with
    | halted e => exact step_of_halted (e := e) rfl
    | active =>
      obtain ⟨t, ht⟩ := step_next_of_active he
      exact absurd (ht.symm.trans hf) (by simp)

end Sys2Proof.Machine
end

section
/-! The statements about jumps, calls, returns and what spans two steps (41_control_flow.md, 40_step_cycle.md R105). -/

namespace Sys2Proof.Machine

/-! ## What a guarded instruction answers -/

/-- Where its condition holds, a guarded instruction halts and changes nothing else (60_exceptions.md R204). -/
theorem guardFatal_halts {bad : Prop} [Decidable bad] {k : FatalKind} {i : Instr} {s e : State} (h : bad) :
    ∃ t, guardFatal bad k i s e = .next t ∧ Halts k i s t :=
  ⟨_, guardFatal_bad k i s e h, raise_halts s k i⟩

theorem exec_ret_of_nonempty {s : State} (h : ¬ s.stackEmpty) : exec .ret s = .next (s.pop.jump s.top) :=
  guardFatal_good _ _ s _ h

theorem exec_call_of_not_full (nnn : BitVec 12) {s : State} (h : ¬ s.stackFull) :
    exec (.call nnn) s = .next ((s.push s.pc).jump (addrOperand nnn)) :=
  guardFatal_good _ _ s _ h

theorem pop_jump_frame (s : State) (w : Word) : Frame [] [.pc, .stack] s (s.pop.jump w) :=
  ((pop_frame s).trans (jump_frame _ w)).mono (by simp) (by simp)

theorem push_jump_frame (s : State) (w v : Word) : Frame [] [.pc, .stack] s ((s.push w).jump v) :=
  ((push_frame s w).trans (jump_frame _ v)).mono (by simp) (by simp)

/-! ## Jumps, returns, calls (R110 to R112, R117) -/

/-- Settles O35: both jumps write pc alone, and the sum of Bnnn does not wrap (`jpV0_target_toNat`). -/
theorem jumpsGoToTheirTarget : Obligations.JumpsGoToTheirTarget := by
  intro nnn s
  exact ⟨Laws.DecodeEncode.jp nnn rfl, Laws.DecodeEncode.jpV0 nnn rfl,
    ⟨_, rfl, addrOperand_toNat nnn, jump_frame s _⟩,
    ⟨_, rfl, jpV0_target_toNat nnn _, jpV0_target_le nnn _, jump_frame s _⟩⟩

/-- The slot a pop reads, where the depth is known. -/
theorem top_eq_of_sp {s : State} {k : Fin 16} (h : s.sp.val = k.val + 1) : s.top = s.slot k := by
  rw [State.top_eq_slot]
  exact congrArg s.slot (Fin.ext (by simp [h]))

/-- Settles O34: the guard of `exec .ret` is the empty stack; past it the state is `pop`, then `jump` to the top. -/
theorem returnPopsOrUnderflows : Obligations.ReturnPopsOrUnderflows := by
  refine ⟨Laws.DecodeEncode.ret rfl, fun s k h => ?_, fun s => guardFatal_halts⟩
  have hne : ¬ s.stackEmpty := by
    rw [State.stackEmpty, h]
    exact Nat.succ_ne_zero _
  refine ⟨_, exec_ret_of_nonempty hne, top_eq_of_sp h, ?_, fun _ => rfl, pop_jump_frame s _⟩
  simp [h]

/-- Settles O36: the guard of `exec (.call nnn)` is the full stack; past it the state is `push` of pc, then `jump`. -/
theorem callPushesOrOverflows : Obligations.CallPushesOrOverflows := by
  refine fun nnn => ⟨Laws.DecodeEncode.call nnn rfl, fun s k h => ?_, fun s => guardFatal_halts⟩
  have hlt : s.sp.val < Config.stackDepth := h ▸ k.isLt
  refine ⟨_, exec_call_of_not_full nnn (Nat.ne_of_lt hlt), ?_, ?_, fun j hj => ?_, addrOperand_toNat nnn,
    push_jump_frame s _ _⟩
  · rw [State.slot_jump, s.slot_push s.pc k hlt, if_pos h.symm]
  · rw [State.jump_sp, s.push_sp s.pc hlt, h]
  · rw [State.slot_jump, s.slot_push s.pc j hlt, if_neg fun e => hj (Fin.ext (e.trans h))]

/-! ## A call and its return -/

section
variable {s : State}

theorem push_jump_sp (h : s.sp.val < Config.stackDepth) (w v : Word) : ((s.push w).jump v).sp.val = s.sp.val + 1 :=
  s.push_sp w h

/-- What a pop reads after a push. -/
theorem top_push_jump (h : s.sp.val < Config.stackDepth) (w v : Word) : ((s.push w).jump v).top = w := by
  rw [top_eq_of_sp (k := ⟨s.sp.val, h⟩) (push_jump_sp h w v), State.slot_jump, s.slot_push w _ h, if_pos rfl]

theorem pop_push_jump_sp (h : s.sp.val < Config.stackDepth) (w v : Word) : ((s.push w).jump v).pop.sp = s.sp := by
  apply Fin.ext
  show ((s.push w).jump v).sp.val - 1 = s.sp.val
  rw [push_jump_sp h, Nat.add_sub_cancel]

theorem slot_push_of_lt (h : s.sp.val < Config.stackDepth) (w : Word) {k : Fin 16} (hk : k.val < s.sp.val) :
    (s.push w).slot k = s.slot k := by
  rw [s.slot_push w k h, if_neg (Nat.ne_of_lt hk)]

end

/-- Settles O31: the call is `begin` and `advance`, then a push and a jump; the return is `begin` and `advance`, then a pop
and a jump, and reads the depth and the slots as the call left them. -/
theorem callThenReturnComesBack : Obligations.CallThenReturnComesBack := by
  intro s t nnn hr hsp h hret
  have hlt : s.begin.advance.sp.val < Config.stackDepth := hsp
  rw [step_of_runs hr, exec_call_of_not_full nnn (Nat.ne_of_lt hlt)] at h
  have ht := Host.Outcome.next.inj h
  have hdepth : t.sp.val = s.sp.val + 1 := ht ▸ push_jump_sp hlt _ _
  have htop : t.top = s.pc + 2#16 := ht ▸ top_push_jump hlt _ _
  have hpopped : t.pop.sp = s.sp := ht ▸ pop_push_jump_sp hlt _ _
  have hslots : ∀ k : Fin 16, k.val < s.sp.val → t.slot k = s.slot k := fun k hk => ht ▸ slot_push_of_lt hlt _ hk
  have hcall : Frame [] (.pc :: .stack :: stepParts) s t :=
    ht ▸ ((begin_advance_frame s).trans (push_jump_frame _ _ _)).mono (by simp) (by decide)
  have hreturn : Frame [] (.pc :: .stack :: stepParts) t (t.begin.advance.pop.jump t.top) :=
    ((begin_advance_frame t).trans (pop_jump_frame _ _)).mono (by simp) (by decide)
  have hne : ¬ t.begin.advance.stackEmpty := fun he => Nat.succ_ne_zero _ (hdepth.symm.trans he)
  exact ⟨_, (step_of_runs hret).trans (exec_ret_of_nonempty hne), htop, hpopped, hslots,
    (hcall.trans hreturn).mono (by simp) (by decide)⟩

/-! ## Self-loops (40_step_cycle.md R105) -/

/-- Settles O30: the jump brings pc back, so the same word is fetched again and pc is no part of the frame. -/
theorem selfLoopRepeatsItself : Obligations.SelfLoopRepeatsItself := by
  rintro s ⟨nnn, hr, hself⟩
  have hpc : (s.begin.advance.jump (addrOperand nnn)).pc = s.pc := hself
  have hframe : Frame [] (.pc :: stepParts) s (s.begin.advance.jump (addrOperand nnn)) :=
    ((begin_advance_frame s).trans (jump_frame _ _)).mono (by simp) (by decide)
  refine ⟨_, step_of_runs hr, ⟨nnn, ?_, rfl⟩, begin_timersPulsed s, rfl, hframe.drop hpc⟩
  obtain ⟨⟨ha, hw, hf⟩, hd⟩ := hr
  refine ⟨⟨ha, hw, ?_⟩, ?_⟩
  · rwa [State.canFetch_iff, hpc]
  · rw [State.fetchWord, hpc]
    exact hd

/-! ## Fx0A and the step that resolves it (45_timers_keys.md R183, 40_step_cycle.md R93) -/

/-- Settles O55: the next state is `setWait`, which writes the wait state alone. -/
theorem keyWaitIsEnteredByFx0A : Obligations.KeyWaitIsEnteredByFx0A := fun _ s => ⟨_, rfl, rfl, setWait_frame s _⟩

/-- Settles O33: the first step is `begin`, `advance` and `setWait`; the second is that of
`waitResolvesToLowestPressedKey`, which brings the wait state back to RUNNING. -/
theorem keyWaitCostsAResolvingStep : Obligations.KeyWaitCostsAResolvingStep := by
  intro s x hr
  obtain ⟨ha, hw, -⟩ := hr.1
  refine ⟨s.begin.advance.setWait (.waiting x), step_of_runs hr, rfl, rfl, rfl, fun hkeys => ?_⟩
  have hwait : Frame [] (.wait :: .pc :: stepParts) s (s.begin.advance.setWait (.waiting x)) :=
    ((begin_advance_frame s).trans (setWait_frame _ _)).mono (by simp) (by decide)
  obtain ⟨u, k, hstep, hpressed, -, hreg, hrun, -, -, hresolve⟩ :=
    waitResolvesToLowestPressedKey (s.begin.advance.setWait (.waiting x)) x ha rfl hkeys
  have hpc : u.pc = s.pc + 2#16 := hresolve.2 .pc (by decide)
  have hframe : Frame [x] (.wait :: .pc :: stepParts) s u := (hwait.trans hresolve).mono (by simp) (by decide)
  exact ⟨u, k, hstep, hpressed, hreg, hrun, hpc, hframe.drop (hrun.trans hw.symm)⟩

end Sys2Proof.Machine
end

section
/-! The statements about arithmetic with a flag, I, memory transfers, and key skips (42_alu.md, 43_index_memory.md,
45_timers_keys.md). -/

namespace Sys2Proof.Machine

/-! ## A result and a flag (42_alu.md R130, R137 to R141) -/

section
variable (s : State) (x : Reg) (r b : Byte) (f : Byte → Byte)

theorem setResultThenFlag_reg_vf : (s.setResultThenFlag x r b).reg Reg.vf = b := by
  rw [State.setResultThenFlag_eq, State.reg_setReg_self]

theorem setFlagThenUpdate_vf_reg_vf : (s.setFlagThenUpdate Reg.vf b f).reg Reg.vf = f b := by
  rw [State.setFlagThenUpdate_eq, State.reg_setReg_self, State.reg_setReg_self]

theorem setFlagThenUpdate_frame : Frame [x, Reg.vf] [] s (s.setFlagThenUpdate x b f) :=
  (setReg_setReg_frame s Reg.vf x b _).mono (by simp) (by simp)

variable {x}

theorem setResultThenFlag_reg (h : x ≠ Reg.vf) : (s.setResultThenFlag x r b).reg x = r := by
  rw [State.setResultThenFlag_eq, State.reg_setReg_ne _ _ h, State.reg_setReg_self]

theorem setFlagThenUpdate_reg (h : x ≠ Reg.vf) : (s.setFlagThenUpdate x b f).reg x = f (s.reg x) := by
  rw [State.setFlagThenUpdate_eq, State.reg_setReg_self, State.reg_setReg_ne _ _ h]

theorem setFlagThenUpdate_reg_vf (h : x ≠ Reg.vf) : (s.setFlagThenUpdate x b f).reg Reg.vf = b := by
  rw [State.setFlagThenUpdate_eq, State.reg_setReg_ne _ _ h.symm, State.reg_setReg_self]

end

/-- Settles O40: the next state is `setResultThenFlag` with the 8-bit sum and its carry. -/
theorem addRegistersSetsCarry : Obligations.AddRegistersSetsCarry := by
  intro x y s
  refine ⟨_, rfl, fun hx => ?_, ?_, setReg_setReg_frame s x Reg.vf _ _⟩
  · rw [setResultThenFlag_reg s _ _ hx, BitVec.toNat_add]
  · rw [setResultThenFlag_reg_vf, carryFlag_toNat]

theorem byte_sub_toNat (p q : Byte) : (p - q).toNat = (p.toNat + 256 - q.toNat) % 256 := by
  have := q.isLt
  rw [BitVec.toNat_sub]
  omega

/-- Settles O41: both next states are `setResultThenFlag` with the 8-bit difference and its not-borrow. -/
theorem subtractionsSetNotBorrow : Obligations.SubtractionsSetNotBorrow := by
  intro x y s
  refine ⟨⟨_, rfl, fun hx => ?subResult, ?subFlag, setReg_setReg_frame s x Reg.vf _ _⟩,
    ⟨_, rfl, fun hx => ?subnResult, ?subnFlag, setReg_setReg_frame s x Reg.vf _ _⟩⟩
  case subResult | subnResult => rw [setResultThenFlag_reg s _ _ hx, byte_sub_toNat]
  case subFlag | subnFlag => rw [setResultThenFlag_reg_vf, noBorrowFlag_toNat]

theorem byte_shiftRight_one_toNat (v : Byte) : (v >>> 1).toNat = v.toNat / 2 := by
  rw [BitVec.toNat_ushiftRight, Nat.shiftRight_eq_div_pow]

theorem byte_shiftLeft_one_toNat (v : Byte) : (v <<< 1).toNat = 2 * v.toNat % 256 := by
  rw [BitVec.toNat_shiftLeft, Nat.shiftLeft_eq]
  omega

/-- Settles O42: both next states are `setFlagThenUpdate` with the bit shifted out and the shift, in neither of which y
occurs. -/
theorem shiftsActOnVxAndSetVf : Obligations.ShiftsActOnVxAndSetVf := by
  intro x y s
  refine ⟨⟨_, rfl, fun _ => rfl, fun hx => ⟨?shrResult, ?shrFlag⟩, ?shrVf, setFlagThenUpdate_frame s x _ _⟩,
    ⟨_, rfl, fun _ => rfl, fun hx => ⟨?shlResult, ?shlFlag⟩, ?shlVf, setFlagThenUpdate_frame s x _ _⟩⟩
  case shrResult => rw [setFlagThenUpdate_reg s _ _ hx, byte_shiftRight_one_toNat]
  case shrFlag => rw [setFlagThenUpdate_reg_vf s _ _ hx, shiftedOutRight_toNat]
  case shrVf =>
    rintro rfl
    rw [setFlagThenUpdate_vf_reg_vf, byte_shiftRight_one_toNat, shiftedOutRight_toNat]
    omega
  case shlResult => rw [setFlagThenUpdate_reg s _ _ hx, byte_shiftLeft_one_toNat]
  case shlFlag => rw [setFlagThenUpdate_reg_vf s _ _ hx, shiftedOutLeft_toNat]
  case shlVf =>
    rintro rfl
    have := (s.reg Reg.vf).isLt
    rw [setFlagThenUpdate_vf_reg_vf, byte_shiftLeft_one_toNat, shiftedOutLeft_toNat]
    omega

/-! ## The address register (43_index_memory.md R151, R152) -/

theorem index_add_toNat {w : Word} {b : Byte} (h : w.toNat + b.toNat ≤ 0xFFFF) :
    (w + b.setWidth 16).toNat = w.toNat + b.toNat := by
  rw [BitVec.toNat_add, BitVec.toNat_setWidth]
  omega

/-- Settles O45: the guard is the sum above 0xFFFF; below it the 16-bit sum is exact. -/
theorem addIndexIsExactOrHalts : Obligations.AddIndexIsExactOrHalts := by
  refine fun x s => ⟨fun h => ?_, guardFatal_halts⟩
  exact ⟨_, guardFatal_good _ _ s _ (Nat.not_lt.2 h), index_add_toNat h, setI_frame s _⟩

/-- Settles O46: the guard is a value that is no hex digit; past it I is the glyph's address. -/
theorem loadFontPointsAtGlyphOrHalts : Obligations.LoadFontPointsAtGlyphOrHalts := by
  refine fun x s => ⟨fun h => ?_, fun h => guardFatal_halts (Nat.not_le.2 h)⟩
  exact ⟨_, guardFatal_good _ _ s _ (not_not.2 h), glyphAddr_toNat _, setI_frame s _⟩

/-! ## Key skips (45_timers_keys.md R180, R181) -/

theorem skipIf_not_pc (s : State) (c : Bool) : (s.skipIf !c).pc = if c then s.pc else s.pc + 2#16 := by
  cases c <;> rfl

/-- Settles O53: the guard is a value that names no key; past it the state is `skipIf` of the key's bit or its negation. -/
theorem keySkipsTestTheMaskOrHalt : Obligations.KeySkipsTestTheMaskOrHalt := by
  refine fun x s => ⟨fun h => ⟨?skp, ?sknp⟩,
    fun h => ⟨guardFatal_halts (Nat.not_le.2 h), guardFatal_halts (Nat.not_le.2 h)⟩⟩
  case skp => exact ⟨_, guardFatal_good _ _ s _ (not_not.2 h), rfl, skipIf_frame s _⟩
  case sknp => exact ⟨_, guardFatal_good _ _ s _ (not_not.2 h), skipIf_not_pc s _, skipIf_frame s _⟩

/-! ## A store through I (20_memory.md R53, R58, R61) -/

section
variable {s : State} {bs : List Byte} (hm : s.mem.wf) (hfit : s.base + bs.length ≤ Config.memSize)
include hm hfit

theorem read_store_inside {k : Nat} (hk : k < bs.length) : (s.store s.base bs).mem.read (s.base + k) = bs[k] :=
  s.mem.read_writeBytes_inside hm s.base bs k hfit hk

theorem store_keepsMemoryOutside : KeepsMemoryOutside s.base bs.length s (s.store s.base bs) :=
  fun a ha => s.mem.read_writeBytes_outside hm s.base bs a hfit ha

end

theorem not_outOfRange_of_fits {b len : Nat} (h : b + len ≤ 4096) : ¬ outOfRange b len :=
  (not_outOfRange_iff b len).2 (.inr h)

theorem outOfRange_of_last_beyond {b k : Nat} (h : 0xFFF < b + k) : outOfRange b (k + 1) := ⟨Nat.succ_pos k, h⟩

/-! ## Fx33 (43_index_memory.md R153) -/

/-- Settles O47: the guard is the last address beyond memory; past it the state is `store` of the three digits. -/
theorem bcdStoresThreeDigitsOrHalts : Obligations.BcdStoresThreeDigitsOrHalts := by
  refine fun x s => ⟨fun hm h => ?_, fun h => guardFatal_halts (outOfRange_of_last_beyond h)⟩
  have hfit : s.base + (bcdDigits (s.reg x)).length ≤ Config.memSize := Nat.succ_le_succ h
  have hread := fun {k} => read_store_inside hm hfit (k := k)
  have hdigits := bcdDigits_toNat (s.reg x)
  simp only [bcdDigits, List.map_cons, List.map_nil, List.cons.injEq, and_true] at hdigits
  obtain ⟨hundreds, tens, ones⟩ := hdigits
  refine ⟨_, guardFatal_good _ _ s _ (not_outOfRange_of_fits hfit), ?_, ?_, ?_, store_keepsMemoryOutside hm hfit,
    s.mem.writeBytes_wf hm _ _, store_frame s _ _⟩
  · exact (congrArg BitVec.toNat (hread (k := 0) (by simp))).trans hundreds
  · exact (congrArg BitVec.toNat (hread (k := 1) (by simp))).trans tens
  · exact (congrArg BitVec.toNat (hread (k := 2) (by simp))).trans ones

/-! ## Fx55 and Fx65 (43_index_memory.md R154, R155) -/

theorem regsUpTo_fits {s : State} {x : Reg} (h : s.i.toNat + x.val ≤ 0xFFF) :
    s.base + (s.regsUpTo x).length ≤ Config.memSize := by
  rw [regsUpTo_length]
  exact Nat.succ_le_succ h

theorem exec_storeRegs_of_fits {s : State} {x : Reg} (h : s.i.toNat + x.val ≤ 0xFFF) :
    exec (.storeRegs x) s = .next (s.store s.base (s.regsUpTo x)) :=
  guardFatal_good _ _ s _ (not_outOfRange_of_fits (Nat.succ_le_succ h))

/-- After Fx55 the bytes from I on are the registers. -/
theorem read_store_regsUpTo {s : State} {x k : Reg} (hm : s.mem.wf) (h : s.i.toNat + x.val ≤ 0xFFF)
    (hk : k.val ≤ x.val) : (s.store s.base (s.regsUpTo x)).mem.read (s.base + k.val) = s.reg k := by
  have hlt : k.val < (s.regsUpTo x).length := by
    rw [regsUpTo_length]
    exact Nat.lt_succ_of_le hk
  rw [read_store_inside hm (regsUpTo_fits h) hlt, regsUpTo_getElem]

/-- Settles O48: the guard is the last address beyond memory; past it the state is `store` of V0..Vx. -/
theorem storeRegistersInclusiveOrHalts : Obligations.StoreRegistersInclusiveOrHalts := by
  refine fun x s => ⟨fun hm h => ?_, fun h => guardFatal_halts (outOfRange_of_last_beyond h)⟩
  have hout := store_keepsMemoryOutside hm (regsUpTo_fits h)
  rw [regsUpTo_length] at hout
  exact ⟨_, exec_storeRegs_of_fits h, fun k => read_store_regsUpTo hm h, hout, s.mem.writeBytes_wf hm _ _,
    store_frame s _ _⟩

/-- Settles O49: the guard is the last address beyond memory; past it the state is `loadRegsFrom` the bytes at I. -/
theorem loadRegistersInclusiveOrHalts : Obligations.LoadRegistersInclusiveOrHalts := by
  refine fun x s => ⟨fun h => ?_, fun h => guardFatal_halts (outOfRange_of_last_beyond h)⟩
  refine ⟨_, guardFatal_good _ _ s _ (not_outOfRange_of_fits (Nat.succ_le_succ h)), fun k hk => ?_, fun k hk => ?_,
    loadRegsFrom_frame s x _⟩
  · rw [State.reg_loadRegsFrom, if_pos hk]
  · rw [State.reg_loadRegsFrom, if_neg (Nat.not_le.2 hk)]

/-! ## A store that the next fetch reads (20_memory.md R63) -/

/-- Settles O32: the two bytes of the next fetch, at I and I + 1, are those that `read_store_regsUpTo` gives for V0
and V1. -/
theorem storeIsSeenByTheNextFetch : Obligations.StoreIsSeenByTheNextFetch := by
  intro s x hm hr hx hi hfit
  obtain ⟨ha, hw, -⟩ := hr.1
  have hpc : (s.pc + 2#16).toNat = s.base := congrArg BitVec.toNat hi.symm
  have hread : ∀ k : Reg, k.val ≤ x.val →
      (s.begin.advance.store s.base (s.regsUpTo x)).mem.read (s.base + k.val) = s.reg k :=
    fun k => read_store_regsUpTo (s := s.begin.advance) hm hfit
  have hstep : step s = .next (s.begin.advance.store s.base (s.regsUpTo x)) := by
    rw [step_of_runs hr]
    exact exec_storeRegs_of_fits (s := s.begin.advance) hfit
  refine ⟨_, hstep, ⟨ha, hw, ?_⟩, ?_⟩
  · have hlast : s.base + x.val ≤ 0xFFF := hfit
    show (s.pc + 2#16).toNat + 1 < 4096
    omega
  · show joinBytes (Memory.read _ (s.pc + 2#16).toNat) (Memory.read _ ((s.pc + 2#16).toNat + 1)) = _
    rw [hpc]
    exact congrArg₂ joinBytes (hread 0 (Nat.zero_le _)) (hread 1 hx)

end Sys2Proof.Machine
end

section
/-! The statements about the sprite plot (44_display.md R171, R172). -/

namespace Sys2Proof.Machine

/-! ## Where a sprite pixel falls -/

theorem eq_wrapRow_iff {cy r : Nat} {R : Fin 32} : R = wrapRow cy r ↔ R.val = (cy + r) % 32 := Fin.ext_iff

theorem eq_wrapCol_iff {cx c : Nat} {C : Fin 64} : C = wrapCol cx c ↔ C.val = (cx + c) % 64 := Fin.ext_iff

/-- A sprite pixel and the pixel it falls on, named by their numbers, are a sprite pixel. -/
theorem exists_wrapped_iff {cx cy n : Nat} {P : Nat → Nat → Fin 32 → Fin 64 → Prop} :
    (∃ (r c : Nat) (R : Fin 32) (C : Fin 64), r < n ∧ c < 8 ∧ R.val = (cy + r) % 32 ∧ C.val = (cx + c) % 64 ∧
      P r c R C) ↔ ∃ r c, r < n ∧ c < 8 ∧ P r c (wrapRow cy r) (wrapCol cx c) := by
  constructor
  · rintro ⟨r, c, R, C, hr, hc, hR, hC, hP⟩
    obtain rfl := eq_wrapRow_iff.2 hR
    obtain rfl := eq_wrapCol_iff.2 hC
    exact ⟨r, c, hr, hc, hP⟩
  · rintro ⟨r, c, hr, hc, hP⟩
    exact ⟨r, c, _, _, hr, hc, rfl, rfl, hP⟩

/-! ## One draw -/

theorem exec_drw_of_fits {s : State} {n : Nat} (x y : Reg) (h : n = 0 ∨ s.i.toNat + n - 1 ≤ 0xFFF) :
    exec (.drw x y n) s = .next (s.drawSprite (s.reg x) (s.reg y) n) := by
  have hfit : ¬ outOfRange s.base n := by
    rw [not_outOfRange_iff]
    show n = 0 ∨ s.i.toNat + n ≤ 4096
    omega
  exact guardFatal_good _ _ s _ hfit

theorem flagByte_eq_one_iff (b : Bool) : flagByte b = 1#8 ↔ b = true := by
  cases b <;> decide

theorem flagByte_one_or_zero (b : Bool) : flagByte b = 1#8 ∨ flagByte b = 0#8 := by
  cases b <;> decide

theorem drawSprite_reg_vf (s : State) (cx cy : Byte) (n : Nat) : (s.drawSprite cx cy n).reg Reg.vf =
    flagByte (plotSprite cx.toNat cy.toNat n (fun r => s.mem.read (s.base + r)) s.fb).hit := by
  rw [drawSprite_reg, if_pos rfl]

/-- Settles O51: past the guard the state is `drawSprite`, whose pixels and collision bit the lemmas about `plotSprite`
give, for fewer rows than the framebuffer has. -/
theorem drawXorsTheSpriteAndSetsCollision : Obligations.DrawXorsTheSpriteAndSetsCollision := by
  refine fun x y n s hn => ⟨fun hfit => ?_, fun hpos hbad => guardFatal_halts ⟨hpos, hbad⟩⟩
  have hrows : n ≤ 32 := by omega
  refine ⟨_, exec_drw_of_fits x y hfit, fun r c R C hr hc hR hC => ?inside, fun R C hout => ?outside, ?flag, ?hit,
    drawSprite_frame s _ _ n⟩
  case inside =>
    obtain rfl := eq_wrapRow_iff.2 hR
    obtain rfl := eq_wrapCol_iff.2 hC
    exact pixel_plotSprite_inside _ _ n _ s.fb hrows hr hc
  case outside =>
    refine pixel_plotSprite_outside _ _ n _ s.fb hrows R C fun r c hr hc ⟨hR, hC⟩ => ?_
    exact hout r c hr hc ⟨eq_wrapRow_iff.1 hR.symm, eq_wrapCol_iff.1 hC.symm⟩
  case flag =>
    rw [drawSprite_reg_vf]
    exact flagByte_one_or_zero _
  case hit =>
    rw [drawSprite_reg_vf, flagByte_eq_one_iff, plotSprite_hit _ _ n _ s.fb hrows, exists_wrapped_iff]
    rfl

/-! ## The same sprite drawn again (90_conflicts.md C7) -/

section
variable {cx cy n : Nat} {rowAt : Nat → Byte} {fb : FrameBuffer} (hn : n ≤ 32)
include hn

/-- The second XOR of a pixel undoes the first, and no other pixel is touched. -/
theorem pixel_plotSprite_plotSprite (R : Fin 32) (C : Fin 64) :
    pixel (plotSprite cx cy n rowAt (plotSprite cx cy n rowAt fb).fb).fb R C = pixel fb R C := by
  by_cases h : ∃ r c, r < n ∧ c < 8 ∧ wrapRow cy r = R ∧ wrapCol cx c = C
  · obtain ⟨r, c, hr, hc, rfl, rfl⟩ := h
    rw [pixel_plotSprite_inside cx cy n rowAt _ hn hr hc, pixel_plotSprite_inside cx cy n rowAt fb hn hr hc,
      Bool.xor_assoc, Bool.xor_self, Bool.xor_false]
  · have hout : ∀ r c, r < n → c < 8 → ¬ (wrapRow cy r = R ∧ wrapCol cx c = C) :=
      fun r c hr hc hRC => h ⟨r, c, hr, hc, hRC⟩
    rw [pixel_plotSprite_outside cx cy n rowAt _ hn R C hout, pixel_plotSprite_outside cx cy n rowAt fb hn R C hout]

/-- A 1 bit of the sprite meets a 1 in the second draw exactly where it met a 0 in the first. -/
theorem plotSprite_plotSprite_hit : (plotSprite cx cy n rowAt (plotSprite cx cy n rowAt fb).fb).hit = true ↔
    ∃ r c, r < n ∧ c < 8 ∧ pixel fb (wrapRow cy r) (wrapCol cx c) = false ∧ spriteBit (rowAt r) c = true := by
  rw [plotSprite_hit cx cy n rowAt _ hn]
  refine exists_congr fun r => exists_congr fun c => and_congr_right fun hr => and_congr_right fun hc => ?_
  rw [pixel_plotSprite_inside cx cy n rowAt fb hn hr hc]
  refine and_congr_left fun hbit => ?_
  rw [hbit, Bool.xor_true, Bool.not_eq_true']

end

/-- Settles O52: the second draw has the coordinates, I and memory of the first, so it plots the same sprite onto what the
first left. -/
theorem drawingTwiceRestoresTheFrame : Obligations.DrawingTwiceRestoresTheFrame := by
  intro x y n s t hn hfit h hx hy
  have hrows : n ≤ 32 := by omega
  obtain rfl := Host.Outcome.next.inj ((exec_drw_of_fits x y hfit).symm.trans h)
  have hagain := exec_drw_of_fits (s := s.drawSprite (s.reg x) (s.reg y) n) x y hfit
  rw [hx, hy] at hagain
  refine ⟨_, hagain, pixel_plotSprite_plotSprite hrows, ?_⟩
  rw [drawSprite_reg_vf, flagByte_eq_one_iff, exists_wrapped_iff]
  exact plotSprite_plotSprite_hit hrows

end Sys2Proof.Machine
end
